-- ==== Sys2Proof/Word.lean ====
section
/-! DEFINITION. The plain types a jaycee-62 program is made of: characters, strings, data addresses, opcodes, the line-address
operand and the reasons a word is illegal. There are no bit fields in this machine (R9), so there is no machine word. -/

namespace Sys2Proof

/-- A character: its ASCII code (R8 `CHARSET`, R9). Characters outside ASCII do not exist here (U13; log entry 1). -/
abbrev Ch := Fin 128

/-- A string: a finite sequence of characters, character 0 first (R9). -/
abbrev Text := List Ch

/-- A data address: `k` stands for `A(k)`, the `k`-th of the 256 addresses `00`..`FF` (R13). -/
abbrev Addr := Fin 256

/-- The text of an ASCII literal, so that a constant of the spec can be written as the spec writes it. -/
def txt (s : String) : Text := s.toList.map fun c => Fin.ofNat 128 c.toNat

/-- The three instruction formats (R92): no operand, a label operand, a line-address operand. -/
inductive Format where
  | n
  | l
  | a
deriving DecidableEq, Repr

/-- The eight opcodes (R2). -/
inductive Opcode where
  | lda
  | sta
  | add
  | sub
  | mba
  | jmp
  | jn
  | hlt
deriving DecidableEq, Repr

/-- A decoded line-address operand (R98): a 1-based line number, or a token that is not two decimal digits. -/
inductive Target where
  | addr (n : Nat)
  | bad
deriving DecidableEq, Repr

/-- Why a word is illegal (R100): it has no token after its label was dropped, its first token is none of the eight mnemonics,
or its operand count is not its format's. The spec has one answer, `Illegal`, for all three (log entry 22). -/
inductive Illegal where
  | noToken
  | unknownMnemonic
  | wrongTokenCount
deriving DecidableEq, Repr

end Sys2Proof
end

