-- ==== Sys2Proof/Syntax.lean ====
section
/-! DEFINITION. The decoded instructions (R96): one constructor for each row of spec/opcode_table.json. -/

namespace Sys2Proof

/-- The eight shapes a word decodes to (R96). -/
inductive Instr where
  /-- `LDA <label>` (R141). -/
  | lda (label : Text)
  /-- `STA <label>` (R142). -/
  | sta (label : Text)
  /-- `ADD` (R152). -/
  | add
  /-- `SUB` (R153). -/
  | sub
  /-- `MBA` (R154). -/
  | mba
  /-- `JMP <lineaddr>` (R162). -/
  | jmp (target : Target)
  /-- `JN <lineaddr>` (R165). -/
  | jn (target : Target)
  /-- `HLT` (R171). -/
  | hlt
deriving DecidableEq, Repr

/-- The opcode of an instruction. -/
def Instr.opcode : Instr → Opcode
  | .lda _ => .lda
  | .sta _ => .sta
  | .add => .add
  | .sub => .sub
  | .mba => .mba
  | .jmp _ => .jmp
  | .jn _ => .jn
  | .hlt => .hlt

end Sys2Proof
end

