-- ==== Sys2Proof/Machine/State.lean ====
section
/-! DEFINITION. The state of the machine (R24, R30, R39, R40), its reset value (R45), and the reasons an operation stops
(R200). -/

namespace Sys2Proof.Machine

/-- A data cell: a pair of strings (R40). -/
structure Cell where
  label : Text
  value : Text
deriving DecidableEq, Repr

/-- The reset content of a cell, label `NULL` and value `0` (R41, R45): what an address that memory does not list reads as. -/
def Cell.unset : Cell := ⟨[0x4E, 0x55, 0x4C, 0x4C], [0x30]⟩

/-- The data memory: the cells that differ from `Cell.unset`, by rising address (log entry 2). All 256 addresses exist always
(R40): one that is not listed reads as `Cell.unset`. -/
abbrev Memory := List (Addr × Cell)

/-- The canonical form: addresses strictly rising, no listed cell equal to what an unlisted address reads as. -/
abbrev Memory.wf (m : Memory) : Prop := m.Pairwise (fun p q => p.1 < q.1) ∧ ∀ p ∈ m, p.2 ≠ Cell.unset

/-- The whole state of the machine: six register cells (R30), the program store (R39) and the data memory (R40). -/
structure State where
  /-- `IC`, the fetch cursor: index of the next line slot (R31). -/
  ic : Nat
  /-- `PC`, the displayed program counter (R32). -/
  pc : Nat
  /-- `ACC`, the accumulator (R34). -/
  acc : Int
  /-- `B`, the second operand register (R34). -/
  b : Int
  /-- `NF`, the negative flag (R35). -/
  nf : Bool
  /-- `CUR`, the fetch latch (R36). -/
  cur : Text
  /-- `Prog`, the program store (R39). -/
  prog : List Text
  /-- The data memory (R40). -/
  mem : Memory
deriving DecidableEq, Repr

/-- The reset state (R45). -/
def State.reset : State where
  ic := 0
  pc := 0
  acc := 0
  b := 0
  nf := false
  cur := []
  prog := []
  mem := []

/-- The five error conditions (R200, R201). Each ends one operation with the state unchanged, is recorded nowhere in the
machine, and is returned to the host (R17, R209, R210). -/
inductive Fault where
  /-- Raised by `step` when `IC >= len(Prog)`: the normal end of a run (R121, R202). Safe: the spec's own stop. -/
  | programCompleted
  /-- Raised by `step` for a word outside the grammar (R101, R203; the spec's decision D6). Safe: the machine may stop where
  the original goes on. -/
  | illegalInstruction
  /-- Raised by `step` for a jump that would be taken to line `00` (R164, R204; the spec's decision D8). Safe, as above. -/
  | invalidJumpTarget
  /-- Raised by `setMemoryCell` for an address that is not one of `00`..`FF` (R177, R205). Safe: the spec's own answer. -/
  | invalidAddress
  /-- Raised by `runToCompletion` under `MAX_STEPS = some m` when `m` steps are done (R188). Safe: the spec's own answer. -/
  | stepBudgetExceeded
deriving DecidableEq, Repr

/-- Why an instruction is given no meaning. -/
inductive Refusal where
  /-- Raised by an arm of `exec` for an instruction that is not modelled yet; no arm does so. Safe: the machine only stops. -/
  | notModelled (mnemonic : String)
deriving DecidableEq, Repr

/-- What an instruction answers. -/
abbrev Answer := Host.Outcome State Fault Refusal

/-- The tag a completed step returns for logging (R44). It is an output of the step, never state. -/
inductive OutcomeTag where
  | success
  | noOpUnmatchedLabel
  | noOpUnparseableValue
  | noOpBadTarget
deriving DecidableEq, Repr

/-- The Snapshot (R181, R182): a view of the state, never state itself. Number fields are decimal numerals. -/
structure Snapshot where
  pc : Text
  acc : Text
  b : Text
  mar : Text
  mdr : Text
  ir : Text
  nf : Text
  comments : Text
  instructionSteps : Text
  /-- All 256 addresses in address order, each with its cell (R182). -/
  memory : List (Text × Cell)
deriving DecidableEq, Repr

/-- What a completed step hands back: the Snapshot, the tag, and the state it leaves (R120, R127). -/
structure StepReturn where
  snapshot : Snapshot
  tag : OutcomeTag
  state : State
deriving DecidableEq, Repr

end Sys2Proof.Machine
end

