-- ==== Sys2Proof/Machine/Ops.lean ====
section
/-! DEFINITION. The named operations over memory and registers: every read and write the instructions and the host make goes
through one of these, and so does raising an error condition. -/

namespace Sys2Proof.Machine

/-- `MemRead(a, 1)` (R13): total on the 256 addresses, no side effect (R73). -/
def Memory.read (m : Memory) (a : Addr) : Cell := (m.lookup a).getD Cell.unset

/-- The cells of `m` with the one at `a` taken out, and `c` put in its place in address order unless it is the unset cell. -/
def Memory.write (m : Memory) (a : Addr) (c : Cell) : Memory :=
  let rest := m.filter fun p => p.1 != a
  if c = Cell.unset then rest
  else rest.takeWhile (fun p => p.1 < a) ++ (a, c) :: rest.dropWhile fun p => p.1 < a

/-- `ACC <- v`. -/
def State.setAcc (s : State) (v : Int) : State := { s with acc := v }

/-- `B <- v`. -/
def State.setB (s : State) (v : Int) : State := { s with b := v }

/-- `NF <- v`. -/
def State.setNf (s : State) (v : Bool) : State := { s with nf := v }

/-- `PC <- PC + 1`, the part of step 3 that every instruction but a taken jump performs (R124). -/
def State.advancePc (s : State) : State := { s with pc := s.pc + 1 }

/-- `IC <- IC + 1`, step 5 of the cycle (R126). -/
def State.advanceIc (s : State) : State := { s with ic := s.ic + 1 }

/-- `IC <- k` and `PC <- k`, the two writes of a taken jump (R11, R160). -/
def State.jumpTo (s : State) (k : Nat) : State := { s with ic := k, pc := k }

/-- `CUR <- w`, the latch of step 2 (R122). -/
def State.latch (s : State) (w : Text) : State := { s with cur := w }

/-- `Prog <- lines`; only the host does this (R39). -/
def State.setProg (s : State) (lines : List Text) : State := { s with prog := lines }

/-- Replaces the data memory. -/
def State.setMem (s : State) (m : Memory) : State := { s with mem := m }

/-- `MemWrite(a, 1, c)` (R13). -/
def State.writeCell (s : State) (a : Addr) (c : Cell) : State := s.setMem (s.mem.write a c)

/-- Overwrites the value of the cell at `a` and keeps its label, the only write an instruction makes (R72, R142). -/
def State.storeValue (s : State) (a : Addr) (v : Text) : State := s.writeCell a ⟨(s.mem.read a).label, v⟩

/-- The line slot at the fetch cursor receives `line`; slots up to it that do not exist come into being empty. -/
def State.placeLine (s : State) (line : Text) : State :=
  s.setProg (if s.ic < s.prog.length then s.prog.set s.ic line
    else s.prog ++ (List.replicate (s.ic - s.prog.length) [] ++ [line]))

/-- `raise E` (R17, R209): the one way an operation takes an error condition. Nothing is saved, no mode changes, control goes
to no handler; every write of the operation is discarded and the condition is returned to the host. There is no return from
it (R211). -/
def raise {α : Type} (f : Fault) : Host.Outcome α Fault Refusal := .fault f

/-- The state of an answer that has one. -/
def nextState? : Answer → Option State
  | .next s => some s
  | _ => none

/-- The condition of an answer that raised one. -/
def fault? : Answer → Option Fault
  | .fault f => some f
  | _ => none

end Sys2Proof.Machine
end

