-- ==== Sys2Proof/Machine/Flags.lean ====
section
/-! DEFINITION. The ALU and the one flag computation (R150, R151): exact integers, subtraction to magnitude and sign. -/

namespace Sys2Proof.Machine

/-- The two operations of the ALU (R150). -/
inductive AluOp where
  | add
  | sub
deriving DecidableEq, Repr

/-- `ALU(op, a, b, nf_in) -> (result, nf_out)` (R150). -/
def alu (op : AluOp) (a b : Int) (nf : Bool) : Int × Bool :=
  match op with
  | .add => (a + b, nf)
  | .sub => if a - b < 0 then (-(a - b), true) else (a - b, false)

/-- Runs the ALU on the fixed operand pair (`ACC`, `B`), result to `ACC`, flag to `NF` (R150). -/
def State.applyAlu (s : State) (op : AluOp) : State :=
  let r := alu op s.acc s.b s.nf
  (s.setAcc r.1).setNf r.2

end Sys2Proof.Machine
end

