-- ==== Sys2Proof/Machine/Arithmetic.lean ====
section
/-! DEFINITION. `ADD`, `SUB` and `MBA` (R152-R155). -/

namespace Sys2Proof.Machine

/-- `ADD` (R152): `ACC <- ACC + B`, `NF` kept. -/
def execAdd (s : State) : Answer := .next (s.applyAlu .add).advancePc

/-- `SUB` (R153): the magnitude of `ACC - B` to `ACC`, its sign to `NF`. -/
def execSub (s : State) : Answer := .next (s.applyAlu .sub).advancePc

/-- `MBA` (R154): `B <- ACC`. -/
def execMba (s : State) : Answer := .next (s.setB s.acc).advancePc

end Sys2Proof.Machine
end

