-- ==== Sys2Proof/Machine/Control.lean ====
section
/-! DEFINITION. The next-address multiplexer (R160) and the jump instructions `JMP` and `JN` (R161-R165). -/

namespace Sys2Proof.Machine

/-- A jump that is made unconditionally or whose condition holds (R162): to line `n` of 1-based numbering, that is slot
`n - 1` (R161); a bad target falls through (R163); line `00` raises `InvalidJumpTarget` (R164). -/
def jump (target : Target) (s : State) : Answer :=
  match target with
  | .bad => .next s.advancePc
  | .addr 0 => raise .invalidJumpTarget
  | .addr (k + 1) => .next (s.jumpTo k)

/-- The `Outcome` tag of such a jump (R162, R163). -/
def jumpTag : Target → OutcomeTag
  | .bad => .noOpBadTarget
  | .addr _ => .success

/-- `JMP <lineaddr>` (R162). -/
def execJmp (target : Target) (s : State) : Answer := jump target s

/-- `JN <lineaddr>` (R165): exactly as `JMP` when `NF` is set, and otherwise falls through with its operand unexamined. -/
def execJn (target : Target) (s : State) : Answer :=
  match s.nf with
  | true => jump target s
  | false => .next s.advancePc

/-- The select signal of the multiplexer (R160): whether the instruction is a taken jump in state `s`. -/
def taken : Instr → State → Bool
  | .jmp (.addr n), _ => 1 ≤ n
  | .jn (.addr n), s => s.nf && 1 ≤ n
  | _, _ => false

end Sys2Proof.Machine
end

