-- ==== Sys2Proof/Decode.lean ====
section
/-! DEFINITION. The instruction word (R90-R108): whitespace, trimming and tokens, the mnemonics, the decoder, the encoder that
writes the canonical form, and the instruction read from a number as spec/opcode_table.json numbers its bits. -/

namespace Sys2Proof

/-- The whitespace set `W` (R8): TAB, LF, VT, FF, CR, SPACE. -/
def whitespace : Text := [0x09, 0x0A, 0x0B, 0x0C, 0x0D, 0x20]

/-- Membership in `W`. -/
def isSpace (c : Ch) : Bool := whitespace.contains c

/-- `trim(s)` (R16). -/
def trim (s : Text) : Text := (s.dropWhile isSpace).rdropWhile isSpace

/-- `tokens(s)` (R16): the non-empty pieces of `trim(s)` between runs of whitespace. -/
def tokens (s : Text) : List Text := ((trim s).splitOnP isSpace).filter fun t => !t.isEmpty

/-- A decimal digit, `0`..`9` (R91). -/
def isDigit (c : Ch) : Bool := 0x30 ≤ c && c ≤ 0x39

/-- The number a decimal digit denotes. -/
def digitValue (c : Ch) : Nat := c.val - 0x30

/-- The decimal digit of the units of `d`. -/
def digitCh (d : Nat) : Ch := Fin.ofNat 128 (0x30 + d % 10)

/-- The mnemonic token of an opcode, as the ASCII bytes of R105. -/
def mnemonic : Opcode → Text
  | .lda => [0x4C, 0x44, 0x41]
  | .sta => [0x53, 0x54, 0x41]
  | .add => [0x41, 0x44, 0x44]
  | .sub => [0x53, 0x55, 0x42]
  | .mba => [0x4D, 0x42, 0x41]
  | .jmp => [0x4A, 0x4D, 0x50]
  | .jn => [0x4A, 0x4E]
  | .hlt => [0x48, 0x4C, 0x54]

/-- The format of an opcode (R92). -/
def formatOf : Opcode → Format
  | .add | .sub | .mba | .hlt => .n
  | .lda | .sta => .l
  | .jmp | .jn => .a

/-- The opcode whose mnemonic a token is, by exact, case-sensitive equality (R95). -/
def opcodeOfToken (m : Text) : Option Opcode :=
  [Opcode.lda, .sta, .add, .sub, .mba, .jmp, .jn, .hlt].find? fun op => mnemonic op == m

/-- `Target(t)` (R98): exactly two decimal digits, most significant first, or `bad`. -/
def target : Text → Target
  | [t, u] => if isDigit t && isDigit u then .addr (10 * digitValue t + digitValue u) else .bad
  | _ => .bad

/-- A label token of the form `name:` at the start of a line: its last character is `:` (R91, R94). -/
def isLineLabel (t : Text) : Bool := t.getLast? == some 0x3A

/-- Drops the first token if it is a `name:` label, and at most that one (R94). -/
def dropLineLabel : List Text → List Text
  | [] => []
  | t :: ts => if isLineLabel t then ts else t :: ts

/-- The instruction of an opcode and its operand tokens, whose number must be exactly the format's (R92, R95). -/
def assemble : Opcode → List Text → Except Illegal Instr
  | .lda, [t] => .ok (.lda t)
  | .sta, [t] => .ok (.sta t)
  | .add, [] => .ok .add
  | .sub, [] => .ok .sub
  | .mba, [] => .ok .mba
  | .jmp, [t] => .ok (.jmp (target t))
  | .jn, [t] => .ok (.jn (target t))
  | .hlt, [] => .ok .hlt
  | _, _ => .error .wrongTokenCount

/-- Decoding of the tokens that are left when a line label has been dropped (R95). -/
def decodeTokens : List Text → Except Illegal Instr
  | [] => .error .noToken
  | m :: operands =>
    match opcodeOfToken m with
    | none => .error .unknownMnemonic
    | some op => assemble op operands

/-- `Decode(w)` (R95): total on strings; `.error` is the spec's `Illegal`. -/
def decode (w : Text) : Except Illegal Instr := decodeTokens (dropLineLabel (tokens w))

/-- A token that `Target` maps to the given operand: two digits for a line number; for `bad`, which R96 keeps no text of, the
spec's own example `loop` (R106; log entry 18). -/
def targetToken : Target → Text
  | .addr n => [digitCh (n / 10), digitCh n]
  | .bad => [0x6C, 0x6F, 0x6F, 0x70]

/-- The operand tokens of an instruction (R92). -/
def operandTokens : Instr → List Text
  | .lda t | .sta t => [t]
  | .jmp t | .jn t => [targetToken t]
  | .add | .sub | .mba | .hlt => []

/-- The canonical form of an instruction (R93): no line label, one space (0x20) before each operand token. -/
def encode (i : Instr) : Text := mnemonic i.opcode ++ (operandTokens i).flatMap fun t => 0x20 :: t

/-- The characters of a number of `k` bytes, first character most significant (R9, R105); `none` where a byte is no ASCII
code. -/
def textOfBytes : Nat → Nat → Option Text
  | 0, _ => some []
  | k + 1, w =>
    if h : w / 256 ^ k % 256 < 128 then (textOfBytes k w).map fun t => ⟨w / 256 ^ k % 256, h⟩ :: t else none

/-- What follows a bare mnemonic token whose operand the table gives no bits: the separating space of R93 and an operand of
zero bits, in the width of the canonical form (log entry 16). -/
def zeroOperand : Format → Text
  | .n => []
  | .l => [0x20, 0x00]
  | .a => [0x20, 0x00, 0x00]

/-- The program line that a word of spec/opcode_table.json stands for: `nbits` bits of text, bit 0 the least significant bit of
its last character (R9, R105), completed by an operand of zeros where the word is a bare mnemonic (log entry 16). -/
def tableLine (nbits w : Nat) : Option Text :=
  (textOfBytes (nbits / 8) w).map fun line =>
    match opcodeOfToken line with
    | some op => line ++ zeroOperand (formatOf op)
    | none => line

/-- The instruction the decoder reads from a word of spec/opcode_table.json, or `none` where it refuses. -/
def decodeTableWord (nbits w : Nat) : Option Instr :=
  match tableLine nbits w with
  | none => none
  | some line => (decode line).toOption

end Sys2Proof
end

