-- ==== Sys2Proof/Machine/Operands.lean ====
section
/-! DEFINITION. Every operand form: the label operand resolved by associative search, the integer a cell's value denotes and
the numeral an integer is stored as, and the address argument of `setMemoryCell`. -/

namespace Sys2Proof.Machine

/-- `lower` on one character: only `A`..`Z` change (R15). -/
def lowerCh (c : Ch) : Ch := if 0x41 ≤ c ∧ c ≤ 0x5A then c + 0x20 else c

/-- `upper` on one character: only `a`..`z` change (R15). -/
def upperCh (c : Ch) : Ch := if 0x61 ≤ c ∧ c ≤ 0x7A then c - 0x20 else c

/-- `lower(s)` (R15). -/
def lower (s : Text) : Text := s.map lowerCh

/-- `upper(s)` (R15). -/
def upper (s : Text) : Text := s.map upperCh

/-- Case-insensitive equality of a cell's label with an operand (R14, R15). -/
def Cell.labelled (c : Cell) (t : Text) : Bool := lower c.label == lower t

/-- `Lookup(t)` (R14): the lowest address whose cell's label equals `t` ignoring case. -/
def lookupLabel (m : Memory) (t : Text) : Option Addr := (List.finRange 256).find? fun a => (m.read a).labelled t

/-- The number that a non-empty run of decimal digits denotes, and `none` for any other string. -/
def parseNat (ds : Text) : Option Nat :=
  if !ds.isEmpty && ds.all isDigit then some (ds.foldl (fun n d => 10 * n + digitValue d) 0) else none

/-- `ParseInt(s)` (R18): the strict decimal reading, `none` for `fail` (log entry 10). -/
def parseInt (s : Text) : Option Int :=
  match trim s with
  | [] => none
  | c :: ds =>
    if c = 0x2D then (parseNat ds).map fun n : Nat => -(n : Int)
    else if c = 0x2B then (parseNat ds).map fun n : Nat => (n : Int)
    else (parseNat (c :: ds)).map fun n : Nat => (n : Int)

/-- The decimal digits of `n` in front of `rest`; `fuel` bounds their number. -/
def digitsFrom : Nat → Nat → Text → Text
  | 0, _, rest => rest
  | fuel + 1, n, rest =>
    if n < 10 then digitCh n :: rest else digitsFrom fuel (n / 10) (digitCh n :: rest)

/-- The decimal numeral of a natural number, no leading zero (R19). -/
def natToString (n : Nat) : Text := digitsFrom (n + 1) n []

/-- `IntToString(v)` (R19). -/
def intToString : Int → Text
  | .ofNat n => natToString n
  | .negSucc n => 0x2D :: natToString (n + 1)

/-- What the label operand of `LDA` delivers (R141): the integer held by the first cell so labelled, or the tag of the no-op
that the step then is. -/
def loadOperand (m : Memory) (t : Text) : Except OutcomeTag Int :=
  match lookupLabel m t with
  | none => .error .noOpUnmatchedLabel
  | some a =>
    match parseInt (m.read a).value with
    | none => .error .noOpUnparseableValue
    | some v => .ok v

/-- The upper-case hexadecimal digit of `d`, for `d < 16`. -/
def hexCh (d : Nat) : Ch := Fin.ofNat 128 (if d < 10 then 0x30 + d else 0x37 + d)

/-- The value of an upper-case hexadecimal digit. -/
def hexValue (c : Ch) : Option Nat :=
  if 0x30 ≤ c ∧ c ≤ 0x39 then some (c.val - 0x30)
  else if 0x41 ≤ c ∧ c ≤ 0x46 then some (c.val - 0x37)
  else none

/-- `A(k)` (R13): `k` as two upper-case hexadecimal digits. -/
def addrName (k : Addr) : Text := [hexCh (k.val / 16), hexCh (k.val % 16)]

/-- The slot a host's address argument names (R177, R178): after upper-casing exactly two hexadecimal digits, neither trimmed
nor padded. -/
def parseAddr (t : Text) : Option Addr :=
  match upper t with
  | [h, l] =>
    match hexValue h, hexValue l with
    | some x, some y => some (Fin.ofNat 256 (16 * x + y))
    | _, _ => none
  | _ => none

end Sys2Proof.Machine
end

