-- ==== Sys2Proof/Machine/LoadStore.lean ====
section
/-! DEFINITION. `LDA` and `STA` (R140-R143): the body of step 3; step 5's increment of `IC` is in Machine/Cycle.lean. -/

namespace Sys2Proof.Machine

/-- `LDA <label>` (R141): `ACC` takes the integer of the first cell so labelled; an unmatched label or an unparseable value is
absorbed and leaves `ACC` as it was (R143). -/
def execLda (label : Text) (s : State) : Answer :=
  match loadOperand s.mem label with
  | .ok v => .next (s.setAcc v).advancePc
  | .error _ => .next s.advancePc

/-- `STA <label>` (R142): the value of the first cell so labelled becomes the numeral of `ACC`, its label is kept; an
unmatched label stores nothing. -/
def execSta (label : Text) (s : State) : Answer :=
  match lookupLabel s.mem label with
  | some a => .next (s.storeValue a (intToString s.acc)).advancePc
  | none => .next s.advancePc

end Sys2Proof.Machine
end

