-- ==== Sys2Proof/Machine/System.lean ====
section
/-! DEFINITION. `HLT` (R170-R172): a no-operation, which does not halt. -/

namespace Sys2Proof.Machine

/-- `HLT` (R171): no register changes but for the generic advance of `PC`. -/
def execHlt (s : State) : Answer := .next s.advancePc

end Sys2Proof.Machine
end

