-- ==== Sys2Proof/Machine/Dispatch.lean ====
section
/-! DEFINITION. `Execute(d)` (R124): one arm for each instruction. -/

namespace Sys2Proof.Machine

def exec (i : Instr) (s : State) : Host.Outcome State Fault Refusal :=
  match i with
  | .lda label => Sys2Proof.Machine.execLda label s
  | .sta label => Sys2Proof.Machine.execSta label s
  | .add => Sys2Proof.Machine.execAdd s
  | .sub => Sys2Proof.Machine.execSub s
  | .mba => Sys2Proof.Machine.execMba s
  | .jmp target => Sys2Proof.Machine.execJmp target s
  | .jn target => Sys2Proof.Machine.execJn target s
  | .hlt => Sys2Proof.Machine.execHlt s

end Sys2Proof.Machine
end

