-- ==== Sys2Proof/Config.lean ====
section
/-! DEFINITION. What the spec leaves open as a parameter (R8, R184, D16): the two display tables. The constants have no body,
so nothing can be proved of their values. `MAX_STEPS` is an argument of `runToCompletion` (log entry 15). -/

namespace Sys2Proof

/-- `CommentsOf` for an opcode: read for every opcode but `LDA`, whose entry the spec pins (R184; log entry 14). -/
opaque Config.comments : Opcode → Text

/-- `StepsOf` for an opcode: read for every opcode but `LDA`, whose entry the spec pins (R184; log entry 14). -/
opaque Config.microSteps : Opcode → Text

/-- `CommentsOf(IC, Prog)` where no legal word stands at `IC` (R184, U9; log entry 14). -/
opaque Config.commentsNoWord : Nat → List Text → Text

/-- `StepsOf(IC, Prog)` where no legal word stands at `IC` (R184, U9; log entry 14). -/
opaque Config.microStepsNoWord : Nat → List Text → Text

end Sys2Proof
end

