-- ==== Sys2Proof/Machine/View.lean ====
section
/-! DEFINITION. The Snapshot function (R181-R185), a pure function of the state, and the two display fields (R184). -/

namespace Sys2Proof.Machine

/-- The opcode of the word at slot `ic`, where a legal word stands there (R184). -/
def opcodeAt (ic : Nat) (prog : List Text) : Option Opcode :=
  match prog[ic]? with
  | none => none
  | some line =>
    match decode (trim line) with
    | .ok i => some i.opcode
    | .error _ => none

/-- The pinned `LDA` entry of `CommentsOf` (R184). -/
def ldaComments : Text := txt "LDA\n(Load A)"

/-- The pinned `LDA` entry of `StepsOf` (R184). -/
def ldaSteps : Text := txt "1. MAR <-- IR\n2. MDR <-- M(MAR)\n3. A <-- MDR"

/-- `CommentsOf(IC, Prog)` (R184): only the `LDA` entry is known (log entry 14). -/
def commentsOf (ic : Nat) (prog : List Text) : Text :=
  match opcodeAt ic prog with
  | some .lda => ldaComments
  | some op => Config.comments op
  | none => Config.commentsNoWord ic prog

/-- `StepsOf(IC, Prog)` (R184): only the `LDA` entry is known (log entry 14). -/
def stepsOf (ic : Nat) (prog : List Text) : Text :=
  match opcodeAt ic prog with
  | some .lda => ldaSteps
  | some op => Config.microSteps op
  | none => Config.microStepsNoWord ic prog

/-- `Snapshot()` (R181): `mar`, `mdr` and `ir` are views of `PC`, `ACC` and `IC` (R38); `CUR` and `Prog` are not shown. -/
def snapshot (s : State) : Snapshot where
  pc := natToString s.pc
  acc := intToString s.acc
  b := intToString s.b
  mar := natToString s.pc
  mdr := intToString s.acc
  ir := natToString s.ic
  nf := match s.nf with
    | true => [0x31]
    | false => [0x30]
  comments := commentsOf s.ic s.prog
  instructionSteps := stepsOf s.ic s.prog
  memory := (List.finRange 256).map fun a => (addrName a, s.mem.read a)

end Sys2Proof.Machine
end

