-- ==== Sys2Proof/Machine/Cycle.lean ====
section
/-! DEFINITION. The step cycle (R120-R129): end-of-program check, fetch, decode, execute, Snapshot, post-step increment. -/

namespace Sys2Proof.Machine

/-- Steps 1 to 3 up to decoding (R121-R123): past the end of the program the step raises `ProgramCompleted`; otherwise the
trimmed line at `IC` is latched in `CUR` and decoded, and an illegal word raises `IllegalInstruction`. -/
def fetchDecode (s : State) : Except Fault (Instr × State) :=
  match s.prog[s.ic]? with
  | none => .error .programCompleted
  | some line =>
    match decode (trim line) with
    | .error _ => .error .illegalInstruction
    | .ok i => .ok (i, s.latch (trim line))

/-- Step 5 (R126): the increment of `IC`, suppressed after a taken jump. `before` is the state the instruction ran in. -/
def postIncrement (i : Instr) (before after : State) : State :=
  match taken i before with
  | true => after
  | false => after.advanceIc

/-- The `Outcome` tag of an instruction run in `s` (R44; R141, R142, R152-R154, R162-R165, R171). -/
def tagOf : Instr → State → OutcomeTag
  | .lda t, s =>
    match loadOperand s.mem t with
    | .ok _ => .success
    | .error tag => tag
  | .sta t, s =>
    match lookupLabel s.mem t with
    | some _ => .success
    | none => .noOpUnmatchedLabel
  | .jmp t, _ => jumpTag t
  | .jn t, s =>
    match s.nf with
    | true => jumpTag t
    | false => .success
  | .add, _ => .success
  | .sub, _ => .success
  | .mba, _ => .success
  | .hlt, _ => .success

/-- `step()` with all it returns (R120): the Snapshot is taken after execution and before the increment (R125), and it is
that Snapshot, not one of the final state, that is returned (R127). -/
def stepCall (s : State) : Host.Outcome StepReturn Fault Refusal :=
  match fetchDecode s with
  | .error f => raise f
  | .ok (i, latched) =>
    match exec i latched with
    | .next after => .next ⟨snapshot after, tagOf i latched, postIncrement i latched after⟩
    | .fault f => .fault f
    | .refused r => .refused r

end Sys2Proof.Machine
end

