-- ==== Sys2Proof/Machine/Step.lean ====
section
/-! DEFINITION. The machine's step: the state `step()` leaves (R120). The Snapshot and the tag it also returns are in
`stepCall`. -/

namespace Sys2Proof.Machine

/-- One step (R120). A step that fails changes no state (R17). -/
def step (s : State) : Host.Outcome State Fault Refusal :=
  match stepCall s with
  | .next r => .next r.state
  | .fault f => .fault f
  | .refused r => .refused r

/-- `s` with a word of spec/opcode_table.json as the line at the fetch cursor, so that the next step fetches it; it stands for
the host's `submitCode` (log entries 16, 17). A word that is no ASCII text is placed as the empty line, which is illegal. -/
def State.withFetchWord (s : State) (nbits w : Nat) : State :=
  s.placeLine ((tableLine nbits w).getD [])

end Sys2Proof.Machine
end

