-- ==== Sys2Proof/Machine/HostOps.lean ====
section
/-! DEFINITION. The moves of the host (R6, R175-R190, R220): the operations that happen between steps, and the run of steps
that `runToCompletion` is. -/

namespace Sys2Proof.Machine

/-- What an operation that returns a Boolean hands back: the flag, the reason where it is `false`, and the state left. -/
structure Reply where
  flag : Bool
  reason : Option Fault
  state : State
deriving DecidableEq, Repr

/-- `reset()` (R220): every cell to its reset value, whatever the state before; never fails. -/
def resetOp (_ : State) : State := State.reset

/-- `submitCode(lines)` (R175): replaces the program verbatim and changes nothing else, `IC` included; always `true`. -/
def submitCode (lines : List Text) (s : State) : Reply := ⟨true, none, s.setProg lines⟩

/-- `setMemoryCell(address, label, value)` (R177-R180): writes both strings of one cell as given; an address that names no
slot gives `false` with `InvalidAddress` and no change. -/
def setMemoryCell (address label value : Text) (s : State) : Reply :=
  match parseAddr address with
  | some a => ⟨true, none, s.writeCell a ⟨label, value⟩⟩
  | none => ⟨false, some .invalidAddress, s⟩

/-- `getState()` (R181, R183): the Snapshot of the state, which it leaves as it is. -/
def getState (s : State) : Snapshot := snapshot s

/-- Why a run of steps stopped: a step raised a condition, or a step was refused (which no step is). -/
inductive Stop where
  | raised (f : Fault)
  | refused (r : Refusal)
deriving DecidableEq, Repr

/-- A run of steps: the Snapshots of its completed steps in order, the state they leave, and why it stopped; `stop = none`
where it has not stopped yet. -/
structure Run where
  snapshots : List Snapshot
  state : State
  stop : Option Stop
deriving DecidableEq, Repr

/-- At most `m` rounds of the loop of `runToCompletion` (R186), ending at the first step that fails. -/
def runFor : Nat → State → Run
  | 0, s => ⟨[], s, none⟩
  | m + 1, s =>
    match stepCall s with
    | .next r =>
      let rest := runFor m r.state
      ⟨r.snapshot :: rest.snapshots, rest.state, rest.stop⟩
    | .fault f => ⟨[], s, some (.raised f)⟩
    | .refused r => ⟨[], s, some (.refused r)⟩

/-- `runToCompletion()` under `MAX_STEPS = some m` (R188): after `m` completed steps it stops with `StepBudgetExceeded`, the
steps staying done. -/
def runBudgeted (m : Nat) (s : State) : Run :=
  match (runFor m s).stop with
  | none => { runFor m s with stop := some (.raised .stepBudgetExceeded) }
  | some _ => runFor m s

/-- `runToCompletion()` returns with `r` (R186, R188). Without a budget it is the loop that has stopped; on a program that
never makes a step fail it returns with nothing at all (R131), so this is a relation and not a function. -/
def runReturns (maxSteps : Option Nat) (s : State) (r : Run) : Prop :=
  match maxSteps with
  | some m => r = runBudgeted m s
  | none => r.stop.isSome = true ∧ ∃ m, runFor m s = r

/-- The six operations of the interface with their arguments (R6, R189). `runToCompletion` is given here by a number of rounds
after which it has returned, or by its budget: a run that never returns is no completed operation. -/
inductive Operation where
  | reset
  | submitCode (lines : List Text)
  | setMemoryCell (address label value : Text)
  | step
  | runToCompletion (rounds : Nat)
  | getState
deriving DecidableEq, Repr

/-- The state an operation leaves (R189); one that fails leaves the state as it was (R17). -/
def operate (op : Operation) (s : State) : State :=
  match op with
  | .reset => resetOp s
  | .submitCode lines => (submitCode lines s).state
  | .setMemoryCell address label value => (setMemoryCell address label value s).state
  | .step => (nextState? (step s)).getD s
  | .runToCompletion rounds => (runFor rounds s).state
  | .getState => s

/-- A sequence of `setMemoryCell` calls in their order, each with its address, label and value (R224). -/
def setCells (cells : List (Text × Text × Text)) (s : State) : State :=
  cells.foldl (fun s c => (setMemoryCell c.1 c.2.1 c.2.2 s).state) s

/-- The launch of a program (R223, R224): `reset`, `setMemoryCell` calls in their order, `submitCode`, no step yet. -/
def launch (cells : List (Text × Text × Text)) (lines : List Text) : State :=
  (submitCode lines (setCells cells State.reset)).state

end Sys2Proof.Machine
end

