-- ==== Sys2Proof/Safety.lean ====
section
/-! DEFINITION. What claims about runs are stated in: the invariant of the machine, the states a host can bring about, the end
of a run. -/

namespace Sys2Proof.Machine

/-- What holds at every operation boundary: `PC == IC` (R33), and memory in its canonical form (log entry 2). -/
def State.Inv (s : State) : Prop := s.pc = s.ic ∧ s.mem.wf

/-- The states the host's operations can bring about from reset (R6, R189). -/
inductive Reachable : State → Prop where
  | reset : Reachable State.reset
  | operate (op : Operation) {s : State} : Reachable s → Reachable (operate op s)

/-- The end of a run (R130): the cursor stands at or beyond the end of the program. -/
def State.ended (s : State) : Prop := s.prog.length ≤ s.ic

/-- The decoded instruction at the fetch cursor, where a legal word stands there (R122, R123). -/
def State.fetches (s : State) (i : Instr) : Prop := ∃ line, s.prog[s.ic]? = some line ∧ decode (trim line) = .ok i

/-- `s` and `t` agree in every piece of state but the displayed program counter (R32). -/
def State.sameButPc (s t : State) : Prop := { s with pc := 0 } = { t with pc := 0 }

end Sys2Proof.Machine
end

