-- ==== Sys2Proof/WellFormed.lean ====
section
/-! DEFINITION. Which instructions a word can decode to (R96): a label operand is a token, a line number has two digits. -/

namespace Sys2Proof

/-- A label operand is one or more characters, none of them whitespace (R91, R96, R97). -/
def labelWf (t : Text) : Bool := !t.isEmpty && t.all fun c => !isSpace c

/-- A line number is at most 99; `bad` is always legal (R96, R98). -/
def Target.wf : Target → Bool
  | .addr n => n ≤ 99
  | .bad => true

/-- The well-formed instructions: exactly those some word decodes to (R96). -/
def Instr.wf : Instr → Bool
  | .lda t | .sta t => labelWf t
  | .jmp t | .jn t => t.wf
  | .add | .sub | .mba | .hlt => true

end Sys2Proof
end

