-- ==== Sys2Proof/Certificates/Slice0/Obligations.lean ====
section
/-! DEFINITION. The statements for the provers. Each docstring names the rules of spec/ it formalises; where a clause rests on
a decision of the spec (D<n>) or of the model (a log entry), it says so. -/

open Sys2Proof Sys2Proof.Machine

/-! ## The step cycle -/

/-- R120, R122-R127: when the line at `IC` decodes to `i`, `step` latches the trimmed line, runs `exec i`, takes the Snapshot,
and then advances `IC` unless the jump was taken; a condition that `exec` raises is what the step raises. -/
def Obligations.StepRunsDecodedInstruction : Prop :=
  ∀ (s : State) (line : Text) (i : Instr), s.prog[s.ic]? = some line → decode (trim line) = .ok i →
    (∀ t, exec i { s with cur := trim line } = .next t → taken i s = true →
      stepCall s = .next ⟨snapshot t, tagOf i s, t⟩ ∧ step s = .next t) ∧
    (∀ t, exec i { s with cur := trim line } = .next t → taken i s = false →
      stepCall s = .next ⟨snapshot t, tagOf i s, { t with ic := t.ic + 1 }⟩ ∧
      step s = .next { t with ic := t.ic + 1 }) ∧
    (∀ f, exec i { s with cur := trim line } = .fault f → stepCall s = .fault f ∧ step s = .fault f)

/-- R121: a step raises `ProgramCompleted` exactly when `IC >= len(Prog)`, and then changes nothing. -/
def Obligations.ProgramCompletedExactlyPastEnd : Prop :=
  ∀ s : State, (step s = .fault .programCompleted ↔ s.prog.length ≤ s.ic) ∧
    (s.prog.length ≤ s.ic → operate .step s = s)

/-- R101, R123, R203 (the spec's decision D6): a step raises `IllegalInstruction` exactly when the line at `IC` exists and does
not decode, and then changes nothing. -/
def Obligations.IllegalInstructionExactlyOnIllegalWord : Prop :=
  ∀ s : State, (step s = .fault .illegalInstruction ↔
      ∃ line e, s.prog[s.ic]? = some line ∧ decode (trim line) = .error e) ∧
    (step s = .fault .illegalInstruction → operate .step s = s)

/-- R164, R204 (the spec's decisions D8, D10): a step raises `InvalidJumpTarget` exactly for `JMP 00` and for `JN 00` with `NF`
set, and then changes nothing. -/
def Obligations.InvalidJumpTargetExactlyOnLineZero : Prop :=
  ∀ s : State, (step s = .fault .invalidJumpTarget ↔
      s.fetches (.jmp (.addr 0)) ∨ (s.fetches (.jn (.addr 0)) ∧ s.nf = true)) ∧
    (step s = .fault .invalidJumpTarget → operate .step s = s)

/-- R200, R208, R236: every step answers a next state or one of the three conditions of `step`; it refuses nothing. -/
def Obligations.StepAnswersNextOrNamedCondition : Prop :=
  ∀ s : State, (∃ t, step s = .next t) ∨ step s = .fault .programCompleted ∨ step s = .fault .illegalInstruction ∨
    step s = .fault .invalidJumpTarget

/-- R128, R133 (for a bad target, the spec's decision D7; for an untaken `JN`, D9): what a completed step does to the two
cursors. -/
def Obligations.NetEffectOnCursors : Prop :=
  ∀ s t : State, step s = .next t → ∃ i, s.fetches i ∧
    (∀ n, i = .jmp (.addr n) ∨ (i = .jn (.addr n) ∧ s.nf = true) →
      1 ≤ n ∧ n ≤ 99 ∧ t.ic = n - 1 ∧ t.pc = n - 1) ∧
    ((∀ n, ¬(i = .jmp (.addr n) ∨ (i = .jn (.addr n) ∧ s.nf = true))) → t.ic = s.ic + 1 ∧ t.pc = s.pc + 1)

/-- R161: a taken jump to line `n` completes with `IC` and `PC` at `n - 1`, and the next step fetches `Prog[n - 1]`. -/
def Obligations.TakenJumpReachesItsLine : Prop :=
  ∀ (s : State) (n : Nat), (s.fetches (.jmp (.addr n)) ∨ (s.fetches (.jn (.addr n)) ∧ s.nf = true)) → 1 ≤ n →
    ∃ t, step s = .next t ∧ t.ic = n - 1 ∧ t.pc = n - 1 ∧ t.prog = s.prog ∧
      ∀ line i, s.prog[n - 1]? = some line → decode (trim line) = .ok i → t.fetches i

/-- R143, R155, R171, R206: executing an instruction completes, whatever the state and the operand, but for a jump to line `00`
that would be taken (the spec's decisions D7 and D8 for the two odd operands). -/
def Obligations.OnlyJumpToLineZeroFails : Prop :=
  ∀ (i : Instr) (s : State), (∃ t, exec i s = .next t) ∨
    (exec i s = .fault .invalidJumpTarget ∧ (i = .jmp (.addr 0) ∨ (i = .jn (.addr 0) ∧ s.nf = true)))

/-! ## The instructions -/

/-- R141: `LDA` loads the integer of the lowest cell so labelled; it leaves `ACC` on an unparseable value or no match. -/
def Obligations.LdaLoadsFirstMatch : Prop :=
  ∀ (label : Text) (s : State), taken (.lda label) s = false ∧
    (∀ a, lower (s.mem.read a).label = lower label → (∀ b < a, lower (s.mem.read b).label ≠ lower label) →
      (∀ v, parseInt (s.mem.read a).value = some v →
        exec (.lda label) s = .next { s with acc := v, pc := s.pc + 1 } ∧ tagOf (.lda label) s = .success) ∧
      (parseInt (s.mem.read a).value = none →
        exec (.lda label) s = .next { s with pc := s.pc + 1 } ∧ tagOf (.lda label) s = .noOpUnparseableValue)) ∧
    ((∀ a, lower (s.mem.read a).label ≠ lower label) →
      exec (.lda label) s = .next { s with pc := s.pc + 1 } ∧ tagOf (.lda label) s = .noOpUnmatchedLabel)

/-- R142: `STA` replaces the value of the lowest cell so labelled by the numeral of `ACC`, keeps its label and every other
cell; with no match it stores nothing. The numeral parses back to `ACC` (corner case f). -/
def Obligations.StaStoresFirstMatch : Prop :=
  ∀ (label : Text) (s : State), taken (.sta label) s = false ∧
    (∀ a, lower (s.mem.read a).label = lower label → (∀ b < a, lower (s.mem.read b).label ≠ lower label) →
      tagOf (.sta label) s = .success ∧
      ∃ m, exec (.sta label) s = .next { s with mem := m, pc := s.pc + 1 } ∧
        m.read a = ⟨(s.mem.read a).label, intToString s.acc⟩ ∧ parseInt (m.read a).value = some s.acc ∧
        ∀ b, b ≠ a → m.read b = s.mem.read b) ∧
    ((∀ a, lower (s.mem.read a).label ≠ lower label) →
      exec (.sta label) s = .next { s with pc := s.pc + 1 } ∧ tagOf (.sta label) s = .noOpUnmatchedLabel)

/-- R152: `ADD`. -/
def Obligations.AddAddsB : Prop :=
  ∀ s : State, exec .add s = .next { s with acc := s.acc + s.b, pc := s.pc + 1 } ∧ taken .add s = false ∧
    tagOf .add s = .success

/-- R153: `SUB`: with `d = ACC - B`, `NF` and `ACC` become (true, -d) when `d < 0`, and (false, d) otherwise. -/
def Obligations.SubStoresMagnitudeAndSign : Prop :=
  ∀ s : State,
    (s.acc - s.b < 0 → exec .sub s = .next { s with acc := -(s.acc - s.b), nf := true, pc := s.pc + 1 }) ∧
    (0 ≤ s.acc - s.b → exec .sub s = .next { s with acc := s.acc - s.b, nf := false, pc := s.pc + 1 }) ∧
    taken .sub s = false ∧ tagOf .sub s = .success

/-- R154: `MBA`, and that it is the only instruction that writes `B`. -/
def Obligations.MbaCopiesAccToB : Prop :=
  ∀ s : State, exec .mba s = .next { s with b := s.acc, pc := s.pc + 1 } ∧ taken .mba s = false ∧
    tagOf .mba s = .success ∧ ∀ (i : Instr) (t : State), exec i s = .next t → t.b ≠ s.b → i = .mba

/-- R171: `HLT` changes nothing but `PC`, and does not halt: on the last line it is the next step, not this one, that raises
`ProgramCompleted`. -/
def Obligations.HltIsNoOperation : Prop :=
  (∀ s : State, exec .hlt s = .next { s with pc := s.pc + 1 } ∧ taken .hlt s = false ∧ tagOf .hlt s = .success) ∧
  ∀ s : State, s.fetches .hlt → ∃ t, step s = .next t ∧ t.ic = s.ic + 1 ∧ t.pc = s.pc + 1 ∧ t.prog = s.prog ∧
    (s.ic + 1 = s.prog.length → step t = .fault .programCompleted)

/-- R162, R163 (a bad target falls through by the spec's decision D7): where `JMP` completes and what it leaves. -/
def Obligations.JmpCompletes : Prop :=
  ∀ s : State,
    (∀ n, 1 ≤ n → exec (.jmp (.addr n)) s = .next { s with ic := n - 1, pc := n - 1 } ∧
      taken (.jmp (.addr n)) s = true ∧ tagOf (.jmp (.addr n)) s = .success) ∧
    exec (.jmp .bad) s = .next { s with pc := s.pc + 1 } ∧ taken (.jmp .bad) s = false ∧
    tagOf (.jmp .bad) s = .noOpBadTarget

/-- R165 (an untaken `JN` advances `PC` and leaves its operand unexamined by the spec's decisions D9 and D10; a bad target falls
through by D7): where `JN` completes and what it leaves. -/
def Obligations.JnCompletes : Prop :=
  ∀ s : State,
    (s.nf = false → ∀ t, exec (.jn t) s = .next { s with pc := s.pc + 1 } ∧ taken (.jn t) s = false ∧
      tagOf (.jn t) s = .success) ∧
    (s.nf = true → (∀ n, 1 ≤ n → exec (.jn (.addr n)) s = .next { s with ic := n - 1, pc := n - 1 } ∧
        taken (.jn (.addr n)) s = true ∧ tagOf (.jn (.addr n)) s = .success) ∧
      exec (.jn .bad) s = .next { s with pc := s.pc + 1 } ∧ taken (.jn .bad) s = false ∧
      tagOf (.jn .bad) s = .noOpBadTarget)

/-- R164 (the spec's decision D8): a jump that would be taken to line `00` raises `InvalidJumpTarget`. -/
def Obligations.JumpToLineZeroRaises : Prop :=
  ∀ s : State, exec (.jmp (.addr 0)) s = .fault .invalidJumpTarget ∧
    (s.nf = true → exec (.jn (.addr 0)) s = .fault .invalidJumpTarget)

/-- R151: sums and differences are exact, and after `SUB` the pair (`NF`, `ACC`) is the sign and magnitude of the true
difference, zero being (false, 0) only. -/
def Obligations.ArithmeticIsExact : Prop :=
  ∀ s t : State,
    (exec .add s = .next t → t.acc = s.acc + s.b) ∧
    (exec .sub s = .next t → 0 ≤ t.acc ∧ (t.nf = true ↔ s.acc < s.b) ∧ (t.nf = true → t.acc ≠ 0) ∧
      (t.nf = true → -t.acc = s.acc - s.b) ∧ (t.nf = false → t.acc = s.acc - s.b))

/-! ## Frames -/

/-- R37: what `LDA`, `ADD`, `SUB`, `MBA`, `JMP`, `JN` and `HLT` leave unchanged: every byte of memory, the program, the latch,
and each register but the one the rule of the instruction names. -/
def Obligations.FrameOfInstructionsThatStoreNothing : Prop :=
  ∀ (i : Instr) (s t : State), (∀ label, i ≠ .sta label) → exec i s = .next t →
    (∀ a, t.mem.read a = s.mem.read a) ∧ t.prog = s.prog ∧ t.cur = s.cur ∧
    ((∀ label, i ≠ .lda label) → i ≠ .add → i ≠ .sub → t.acc = s.acc) ∧ (i ≠ .mba → t.b = s.b) ∧
    (i ≠ .sub → t.nf = s.nf) ∧ ((∀ g, i ≠ .jmp g) → (∀ g, i ≠ .jn g) → t.ic = s.ic)

/-- R37, R142: what `STA` leaves unchanged: every register but `PC`, the program, every cell but the one its operand resolves
to, and that cell's label. -/
def Obligations.FrameOfSta : Prop :=
  ∀ (label : Text) (s t : State), exec (.sta label) s = .next t →
    t.ic = s.ic ∧ t.acc = s.acc ∧ t.b = s.b ∧ t.nf = s.nf ∧ t.cur = s.cur ∧ t.prog = s.prog ∧
    (∀ a, lookupLabel s.mem label = some a →
      (t.mem.read a).label = (s.mem.read a).label ∧ ∀ b, b ≠ a → t.mem.read b = s.mem.read b) ∧
    (lookupLabel s.mem label = none → ∀ b, t.mem.read b = s.mem.read b)

/-- R30, R34, R35, R37, R39: over all instructions, which one a step must have run for a piece of state to have changed. -/
def Obligations.StepWritersOfEachCell : Prop :=
  ∀ s t : State, step s = .next t →
    (t.nf ≠ s.nf → s.fetches .sub) ∧ (t.b ≠ s.b → s.fetches .mba ∧ t.b = s.acc) ∧
    (t.acc ≠ s.acc → (∃ label, s.fetches (.lda label)) ∨ s.fetches .add ∨ s.fetches .sub) ∧
    (t.mem ≠ s.mem → ∃ label, s.fetches (.sta label)) ∧ t.prog = s.prog

/-- R40, R61, R72, R212 (the spec's decision D22): a step changes no cell's label and at most one cell's value, which then is
the numeral of `ACC`. -/
def Obligations.StepChangesAtMostOneValue : Prop :=
  ∀ s t : State, step s = .next t →
    (∀ a, (t.mem.read a).label = (s.mem.read a).label) ∧
    (∀ a, t.mem.read a ≠ s.mem.read a → (t.mem.read a).value = intToString s.acc) ∧
    (∀ a b, t.mem.read a ≠ s.mem.read a → t.mem.read b ≠ s.mem.read b → a = b)

/-- R39, R61, R212 (the spec's decision D22): no run, however long, changes the program or any cell's label. -/
def Obligations.RunsKeepProgramAndLabels : Prop :=
  ∀ (m : Nat) (s : State), (runFor m s).state.prog = s.prog ∧
    ∀ a, ((runFor m s).state.mem.read a).label = (s.mem.read a).label

/-! ## Invariants -/

/-- R33, R45: the invariant `PC == IC` holds after reset; so does the canonical form of memory, which is the model's own choice
and no rule of the spec (log entry 2, DESIGN CHOICE). -/
def Obligations.ResetMeetsTheInv : Prop := State.reset.Inv

/-- Every step keeps `PC == IC` (R33; after an untaken `JN` it rests on the spec's decision D9, log entry 8) and the canonical
form of memory (no rule of the spec: the model's own choice, log entry 2, DESIGN CHOICE). -/
def Obligations.StepKeepsCursorsEqualAndMemoryCanonical : Prop :=
  ∀ s t : State, s.Inv → step s = .next t → t.Inv

/-- Every operation of the interface, failed or not, keeps `PC == IC` (R33 over the operations of R189; after an untaken `JN`
it rests on the spec's decision D9, log entry 8) and the canonical form of memory (no rule of the spec: the model's own choice,
log entry 2, DESIGN CHOICE). That `runToCompletion` is an operation with a number of rounds is the model's form too (log entry
19, DESIGN CHOICE). -/
def Obligations.OperationsKeepCursorsEqualAndMemoryCanonical : Prop :=
  ∀ (op : Operation) (s : State), s.Inv → (operate op s).Inv

/-- In every state a host can bring about from reset, `PC == IC` (R33; after an untaken `JN` it rests on the spec's decision
D9, log entry 8) and memory is canonical (no rule of the spec: the model's own choice, log entry 2, DESIGN CHOICE). What a host
can bring about is put in the model's form of its operations (log entry 19, DESIGN CHOICE). -/
def Obligations.ReachableStatesHaveEqualCursors : Prop := ∀ s : State, Reachable s → s.pc = s.ic ∧ s.mem.wf

/-! ## What is never read -/

/-- R32: nothing depends on `PC`. Two states that differ in `PC` at most run for as long, stop for the same reason, and end in
states that differ in `PC` at most. -/
def Obligations.PcIsNeverRead : Prop :=
  ∀ (m : Nat) (s u : State), s.sameButPc u →
    (runFor m s).state.sameButPc (runFor m u).state ∧ (runFor m s).stop = (runFor m u).stop ∧
    (runFor m s).snapshots.length = (runFor m u).snapshots.length

/-- R36 (the spec's decision D2): what the fetch latch held before a step changes nothing the step returns. -/
def Obligations.FetchLatchIsUnobservable : Prop := ∀ (s : State) (w : Text), stepCall { s with cur := w } = stepCall s

/-- R44, R143, R163 (tag names by the spec's decision D18, bad targets by D7): a completed step whose tag is not `Success`
changed the cursors and the latch only. -/
def Obligations.NoOpTagsChangeOnlyCursors : Prop :=
  ∀ (s : State) (r : StepReturn), stepCall s = .next r → r.tag ≠ .success →
    r.state = { s with ic := s.ic + 1, pc := s.pc + 1, cur := r.state.cur }

/-! ## Encoding -/

/-- R93, R95: the decoder reads back every well-formed instruction from its canonical form (for `bad`, from the token of log
entry 18). -/
def Obligations.DecodeOfEncode : Prop := ∀ i : Instr, i.wf = true → decode (encode i) = .ok i

/-- R96: what the decoder yields is well formed: labels are tokens, line numbers have two digits. -/
def Obligations.DecodedIsWellFormed : Prop := ∀ (w : Text) (i : Instr), decode w = .ok i → i.wf = true

/-- R93, R94 (the spec's decision D5): whitespace around a word and between its tokens, and one `name:` token before it, do not
change what it decodes to. -/
def Obligations.LayoutAndLineLabelIgnored : Prop :=
  ∀ (i : Instr) (name before gap after : Text), i.wf = true → name.all (fun c => !isSpace c) = true →
    before.all isSpace = true → gap.all isSpace = true → gap ≠ [] → after.all isSpace = true →
    decode (before ++ encode i ++ after) = .ok i ∧
    decode (before ++ name ++ [0x3A] ++ gap ++ encode i ++ after) = .ok i ∧
    ∀ t, operandTokens i = [t] → decode (before ++ mnemonic i.opcode ++ gap ++ t ++ after) = .ok i

/-- R95, R100 (the spec's decision D5): a word decodes to an instruction exactly when its tokens, less one line label, are the
mnemonic and the operand tokens of that instruction. -/
def Obligations.DecodeAcceptsExactlyTheGrammar : Prop :=
  ∀ (w : Text) (i : Instr), decode w = .ok i ↔
    match i with
    | .lda t => dropLineLabel (tokens w) = [[0x4C, 0x44, 0x41], t]
    | .sta t => dropLineLabel (tokens w) = [[0x53, 0x54, 0x41], t]
    | .add => dropLineLabel (tokens w) = [[0x41, 0x44, 0x44]]
    | .sub => dropLineLabel (tokens w) = [[0x53, 0x55, 0x42]]
    | .mba => dropLineLabel (tokens w) = [[0x4D, 0x42, 0x41]]
    | .jmp g => ∃ t, dropLineLabel (tokens w) = [[0x4A, 0x4D, 0x50], t] ∧ target t = g
    | .jn g => ∃ t, dropLineLabel (tokens w) = [[0x4A, 0x4E], t] ∧ target t = g
    | .hlt => dropLineLabel (tokens w) = [[0x48, 0x4C, 0x54]]

/-- R98 (the spec's decision D7): a token is a line number exactly when it is that number's two decimal digits. -/
def Obligations.TargetIsTwoDecimalDigits : Prop :=
  ∀ (t : Text) (n : Nat), target t = .addr n ↔ n ≤ 99 ∧ t = [digitCh (n / 10), digitCh n]

/-- R105, R93: words written out from the encodings of the spec decode to their instructions: `LDA x`, `STA y`, `ADD`, `SUB`,
`MBA`, `JMP 04`, `JN 07`, `HLT`. -/
def Obligations.WrittenOutWordsDecode : Prop :=
  decode [0x4C, 0x44, 0x41, 0x20, 0x78] = .ok (.lda [0x78]) ∧
  decode [0x53, 0x54, 0x41, 0x20, 0x79] = .ok (.sta [0x79]) ∧
  decode [0x41, 0x44, 0x44] = .ok .add ∧ decode [0x53, 0x55, 0x42] = .ok .sub ∧ decode [0x4D, 0x42, 0x41] = .ok .mba ∧
  decode [0x4A, 0x4D, 0x50, 0x20, 0x30, 0x34] = .ok (.jmp (.addr 4)) ∧
  decode [0x4A, 0x4E, 0x20, 0x30, 0x37] = .ok (.jn (.addr 7)) ∧ decode [0x48, 0x4C, 0x54] = .ok .hlt

/-! ## Operands -/

/-- R14: `Lookup` answers the lowest address whose label equals the operand ignoring case, and `none` when there is none. -/
def Obligations.LookupIsFirstMatch : Prop :=
  ∀ (m : Memory) (t : Text),
    (∀ a, lookupLabel m t = some a ↔
      lower (m.read a).label = lower t ∧ ∀ b < a, lower (m.read b).label ≠ lower t) ∧
    (lookupLabel m t = none ↔ ∀ a, lower (m.read a).label ≠ lower t)

/-- R97 (the spec's decision D21): no instruction reaches a cell whose label is empty or holds whitespace. -/
def Obligations.OnlyTokenLabelsAreReached : Prop :=
  ∀ (w t : Text) (m : Memory) (a : Addr), (decode w = .ok (.lda t) ∨ decode w = .ok (.sta t)) →
    lookupLabel m t = some a → (m.read a).label ≠ [] ∧ ∀ c ∈ (m.read a).label, isSpace c = false

/-- R18, R19 (the spec's decisions D11, D12): parsing the numeral of an integer gives that integer, at every magnitude. -/
def Obligations.ParseOfNumeral : Prop := ∀ v : Int, parseInt (intToString v) = some v

/-- R18 (the spec's decision D11; log entry 10): a string parses to `v` exactly when, trimmed, it is an optional sign and
decimal digits that denote `v`. -/
def Obligations.ParsesExactlyStrictDecimals : Prop :=
  ∀ (s : Text) (v : Int), parseInt s = some v ↔
    ∃ ds : Text, ds ≠ [] ∧ ds.all isDigit = true ∧
      ((trim s = ds ∧ v = ((Nat.ofDigits 10 (ds.reverse.map digitValue) : Nat) : Int)) ∨
        (trim s = 0x2B :: ds ∧ v = ((Nat.ofDigits 10 (ds.reverse.map digitValue) : Nat) : Int)) ∨
        (trim s = 0x2D :: ds ∧ v = -((Nat.ofDigits 10 (ds.reverse.map digitValue) : Nat) : Int)))

/-- R75, R142 (corner case f): a later `LDA` that reaches the cell an `STA` stored to loads exactly the integer stored,
whatever the registers are by then and however the label's case is written. -/
def Obligations.LoadAfterStore : Prop :=
  ∀ (label again : Text) (s t u : State), lookupLabel s.mem label ≠ none → exec (.sta label) s = .next t →
    lower again = lower label → u.mem = t.mem →
    exec (.lda again) u = .next { u with acc := s.acc, pc := u.pc + 1 }

/-! ## The host's operations -/

/-- R220: `reset` brings every piece of state to its reset value, from any state, and every cell to the sentinels; no other
operation but those that run steps writes a register. -/
def Obligations.ResetRestoresEverything : Prop :=
  (∀ (op : Operation) (s : State), op ≠ .reset → op ≠ .step → (∀ m, op ≠ .runToCompletion m) →
    (operate op s).ic = s.ic ∧ (operate op s).pc = s.pc ∧ (operate op s).acc = s.acc ∧ (operate op s).b = s.b ∧
    (operate op s).nf = s.nf) ∧
  ∀ s : State, (operate .reset s).ic = 0 ∧ (operate .reset s).pc = 0 ∧ (operate .reset s).acc = 0 ∧
    (operate .reset s).b = 0 ∧ (operate .reset s).nf = false ∧ (operate .reset s).cur = [] ∧
    (operate .reset s).prog = [] ∧ (∀ a, (operate .reset s).mem.read a = ⟨txt "NULL", txt "0"⟩) ∧
    operate .reset s = State.reset

/-- R175: `submitCode` always answers `true`, replaces the program verbatim, and changes nothing else. -/
def Obligations.SubmitCodeReplacesProgramOnly : Prop :=
  ∀ (lines : List Text) (s : State), submitCode lines s = ⟨true, none, { s with prog := lines }⟩

/-- R177: `setMemoryCell` with an address that upper-cases to `A(k)` writes cell `k` as given and nothing else; with any other
it answers `false`, with the reason `InvalidAddress`, and changes nothing. -/
def Obligations.SetMemoryCellWritesTheNamedCell : Prop :=
  ∀ (address label value : Text) (s : State),
    (∀ k, upper address = addrName k → ∃ m, setMemoryCell address label value s = ⟨true, none, { s with mem := m }⟩ ∧
      m.read k = ⟨label, value⟩ ∧ ∀ j, j ≠ k → m.read j = s.mem.read j) ∧
    ((∀ k, upper address ≠ addrName k) →
      setMemoryCell address label value s = ⟨false, some .invalidAddress, s⟩)

/-- R224, its clauses on the registers and the program: in a launched program's start state the registers are at zero and the
program is as submitted. The last clause adds the invariant, whose canonical form of memory is no rule of the spec but the
model's own choice (log entry 2, DESIGN CHOICE). What memory holds is `LaunchedMemoryIsAsTheCallsWroteIt`. -/
def Obligations.LaunchedStartsAtZero : Prop :=
  ∀ (cells : List (Text × Text × Text)) (lines : List Text),
    (launch cells lines).ic = 0 ∧ (launch cells lines).pc = 0 ∧ (launch cells lines).acc = 0 ∧
    (launch cells lines).b = 0 ∧ (launch cells lines).nf = false ∧ (launch cells lines).prog = lines ∧
    (launch cells lines).Inv

/-- R181, R182: two states with the same Snapshot agree in every register that it shows and in all 256 cells. -/
def Obligations.SnapshotDeterminesVisibleState : Prop :=
  ∀ s t : State, getState s = getState t →
    s.pc = t.pc ∧ s.ic = t.ic ∧ s.acc = t.acc ∧ s.b = t.b ∧ s.nf = t.nf ∧ ∀ a, s.mem.read a = t.mem.read a

/-- R125, R127, R185: the Snapshot a step returns is that of the state it leaves after a taken jump; after any other
instruction it differs in `ir` and the display fields, which are still those of the line just executed. -/
def Obligations.StepSnapshotIsTakenBeforeTheIncrement : Prop :=
  ∀ (s : State) (i : Instr) (r : StepReturn), s.fetches i → stepCall s = .next r →
    (taken i s = true → r.snapshot = getState r.state) ∧
    (taken i s = false → (getState r.state).ir = natToString (s.ic + 1) ∧
      r.snapshot = { getState r.state with
        ir := natToString s.ic, comments := commentsOf s.ic s.prog, instructionSteps := stepsOf s.ic s.prog })

/-! ## Runs -/

/-- R130, R132, R202: a run that has stopped stays stopped: the state it left makes every further run stop at once, for the
same reason, with no Snapshot and no change. -/
def Obligations.StoppedRunsStayStopped : Prop :=
  ∀ (m k : Nat) (s : State) (x : Stop), (runFor m s).stop = some x →
    runFor (k + 1) (runFor m s).state = ⟨[], (runFor m s).state, some x⟩

/-- R186: the loop of `runToCompletion` is the machine's own run of steps: the two agree on every run of `m` steps, and it
returns one Snapshot for each. -/
def Obligations.RunForIsTheRunOfTheCore : Prop :=
  ∀ (m : Nat) (s t : State), Host.Core.run core m s = .next t ↔
    (runFor m s).stop = none ∧ (runFor m s).state = t ∧ (runFor m s).snapshots.length = m

/-- R188 (the spec's decision D14): a budget above the length of a run changes nothing; one that is not stops it there. -/
def Obligations.BudgetOnlyCutsRunsShort : Prop :=
  ∀ (s : State) (r : Run) (m : Nat), runReturns none s r →
    (r.snapshots.length < m → runReturns (some m) s r) ∧
    (m ≤ r.snapshots.length → ∃ q, runReturns (some m) s q ∧ q.stop = some (.raised .stepBudgetExceeded) ∧
      q.snapshots = r.snapshots.take m)

/-- R131: a line that jumps to itself runs for ever: no number of steps ends the run and `runToCompletion` without a budget
does not return. -/
def Obligations.SelfJumpNeverEnds : Prop :=
  ∀ s : State, s.fetches (.jmp (.addr (s.ic + 1))) →
    (∀ m, (runFor m s).stop = none) ∧ ∀ r, ¬runReturns none s r

/-! ## The launch -/

/-- R224, its clauses on memory and on the order of the calls: in a launched program's start state a cell holds what the last
`setMemoryCell` call that names it wrote, and a cell that no call names holds its reset content; and `submitCode` between the
calls, or before them, brings about the same state as after them. A call that fails names no cell. -/
def Obligations.LaunchedMemoryIsAsTheCallsWroteIt : Prop :=
  (∀ (cells : List (Text × Text × Text)) (lines : List Text) (k : Addr),
    (∀ before address label value after, cells = before ++ (address, label, value) :: after →
      upper address = addrName k → (∀ c ∈ after, upper c.1 ≠ addrName k) →
      (launch cells lines).mem.read k = ⟨label, value⟩) ∧
    ((∀ c ∈ cells, upper c.1 ≠ addrName k) → (launch cells lines).mem.read k = ⟨txt "NULL", txt "0"⟩)) ∧
  ∀ (before after : List (Text × Text × Text)) (lines : List Text),
    setCells after (submitCode lines (setCells before State.reset)).state = launch (before ++ after) lines
end

