-- ==== Sys2Proof/Laws/Memory.lean ====
section
/-! SUPPORT. What reading and writing the data memory do: the two read-after-write laws, which hold in every memory, and that a
write keeps the canonical form. -/

namespace Sys2Proof.Machine

@[simp] theorem Memory.read_nil (a : Addr) : Memory.read [] a = Cell.unset := rfl

theorem Memory.read_cons (p : Addr × Cell) (m : Memory) (a : Addr) :
    Memory.read (p :: m) a = if a = p.1 then p.2 else Memory.read m a := by
  obtain ⟨b, c⟩ := p
  by_cases h : a = b
  · simp [Memory.read, h]
  · simp [Memory.read, List.lookup_cons, h, beq_false_of_ne h]

/-- A read takes the first listed cell of the address. -/
theorem Memory.read_append_of_not_mem {l : Memory} {a : Addr} (h : ∀ p ∈ l, p.1 ≠ a) (r : Memory) :
    Memory.read (l ++ r) a = Memory.read r a := by
  induction l with
  | nil => rfl
  | cons p l ih =>
    rw [List.cons_append, Memory.read_cons, if_neg (Ne.symm (h p (by simp))), ih fun q hq => h q (by simp [hq])]

/-- Taking out another address does not change what an address reads as. -/
theorem Memory.read_filter_ne {a b : Addr} (h : b ≠ a) (m : Memory) :
    Memory.read (m.filter fun p => p.1 != a) b = Memory.read m b := by
  induction m with
  | nil => rfl
  | cons p m ih =>
    by_cases hp : p.1 = a
    · have hb : b ≠ p.1 := hp ▸ h
      simp [hp, Memory.read_cons, h, ih]
    · simp [hp, Memory.read_cons, ih]

theorem Memory.read_eq_unset_of_not_mem {m : Memory} {a : Addr} (h : ∀ p ∈ m, p.1 ≠ a) : m.read a = Cell.unset := by
  have := Memory.read_append_of_not_mem h []
  rwa [List.append_nil] at this

/-- Putting a cell in among others does not change what another address reads as. -/
theorem Memory.read_insert_ne {a b : Addr} (h : b ≠ a) (c : Cell) (l r : Memory) :
    Memory.read (l ++ (a, c) :: r) b = Memory.read (l ++ r) b := by
  induction l with
  | nil => simp [Memory.read_cons, h]
  | cons p l ih => simp only [List.cons_append, Memory.read_cons, ih]

/-- Reading the address written gives the cell written. -/
@[simp] theorem Memory.read_write_same (m : Memory) (a : Addr) (c : Cell) : (m.write a c).read a = c := by
  have key : ∀ p ∈ m.filter fun p => p.1 != a, p.1 ≠ a := by simp
  by_cases hc : c = Cell.unset
  · rw [Memory.write, if_pos hc, hc, Memory.read_eq_unset_of_not_mem key]
  · simp only [Memory.write, if_neg hc]
    rw [Memory.read_append_of_not_mem fun p hp => key p ((List.takeWhile_sublist _).subset hp), Memory.read_cons]
    simp

/-- Reading another address gives what it gave before the write. -/
@[simp] theorem Memory.read_write_ne {a b : Addr} (h : b ≠ a) (m : Memory) (c : Cell) :
    (m.write a c).read b = m.read b := by
  by_cases hc : c = Cell.unset
  · simp only [Memory.write, if_pos hc, Memory.read_filter_ne h]
  · simp only [Memory.write, if_neg hc, Memory.read_insert_ne h, List.takeWhile_append_dropWhile,
      Memory.read_filter_ne h]

theorem Memory.read_write (m : Memory) (a b : Addr) (c : Cell) :
    (m.write a c).read b = if b = a then c else m.read b := by
  by_cases h : b = a
  · simp [h]
  · simp [h]

@[simp] theorem Memory.wf_nil : Memory.wf [] := by simp [Memory.wf]

/-- In a memory of strictly rising addresses, every cell that is not below `a` is at or above it, and so are those after. -/
theorem Memory.dropWhile_ge {m : Memory} (h : m.Pairwise fun p q => p.1 < q.1) (a : Addr) :
    ∀ p ∈ m.dropWhile fun p => p.1 < a, a ≤ p.1 := by
  induction m with
  | nil => simp
  | cons q m ih =>
    rw [List.pairwise_cons] at h
    by_cases hq : q.1 < a
    · rw [List.dropWhile_cons_of_pos (by simpa using hq)]
      exact ih h.2
    · rw [List.dropWhile_cons_of_neg (by simpa using hq)]
      rintro p (_ | ⟨_, hp⟩)
      · exact Fin.not_lt.mp hq
      · exact le_trans (Fin.not_lt.mp hq) (le_of_lt (h.1 p hp))

/-- Every write keeps the canonical form. -/
theorem Memory.wf_write {m : Memory} (h : m.wf) (a : Addr) (c : Cell) : (m.write a c).wf := by
  obtain ⟨hs, hu⟩ := h
  have hf : (m.filter fun p => p.1 != a).Pairwise fun p q => p.1 < q.1 := hs.filter _
  have hfu : ∀ p ∈ m.filter fun p => p.1 != a, p.2 ≠ Cell.unset := fun p hp => hu p (List.mem_of_mem_filter hp)
  by_cases hc : c = Cell.unset
  · simp only [Memory.write, if_pos hc]
    exact ⟨hf, hfu⟩
  · simp only [Memory.write, if_neg hc]
    have hlow : ∀ p ∈ (m.filter fun p => p.1 != a).takeWhile fun p => p.1 < a, p.1 < a := fun p hp => by
      simpa using List.mem_takeWhile_imp hp
    have hhigh : ∀ p ∈ (m.filter fun p => p.1 != a).dropWhile fun p => p.1 < a, a < p.1 := fun p hp => by
      have hne : p.1 ≠ a := by
        have := (List.dropWhile_sublist _).subset hp
        simpa using (List.mem_filter.mp this).2
      exact lt_of_le_of_ne (Memory.dropWhile_ge hf a p hp) (Ne.symm hne)
    constructor
    · rw [List.pairwise_append, List.pairwise_cons]
      refine ⟨hf.sublist (List.takeWhile_sublist _), ⟨hhigh, hf.sublist (List.dropWhile_sublist _)⟩, ?_⟩
      rintro p hp q (_ | ⟨_, hq⟩)
      · exact hlow p hp
      · exact lt_trans (hlow p hp) (hhigh q hq)
    · intro p hp
      rw [List.mem_append, List.mem_cons] at hp
      obtain hp | rfl | hp := hp
      · exact hfu p ((List.takeWhile_sublist _).subset hp)
      · exact hc
      · exact hfu p ((List.dropWhile_sublist _).subset hp)

end Sys2Proof.Machine
end

