-- ==== Sys2Proof/Laws/State.lean ====
section
/-! SUPPORT. One lemma for each field of State and each named update, and the fields after an ALU operation, so that no later
proof unfolds a record update. -/

namespace Sys2Proof.Machine

variable (s : State)

@[simp] theorem State.setAcc_ic (v : Int) : (s.setAcc v).ic = s.ic := rfl
@[simp] theorem State.setAcc_pc (v : Int) : (s.setAcc v).pc = s.pc := rfl
@[simp] theorem State.setAcc_acc (v : Int) : (s.setAcc v).acc = v := rfl
@[simp] theorem State.setAcc_b (v : Int) : (s.setAcc v).b = s.b := rfl
@[simp] theorem State.setAcc_nf (v : Int) : (s.setAcc v).nf = s.nf := rfl
@[simp] theorem State.setAcc_cur (v : Int) : (s.setAcc v).cur = s.cur := rfl
@[simp] theorem State.setAcc_prog (v : Int) : (s.setAcc v).prog = s.prog := rfl
@[simp] theorem State.setAcc_mem (v : Int) : (s.setAcc v).mem = s.mem := rfl

@[simp] theorem State.setB_ic (v : Int) : (s.setB v).ic = s.ic := rfl
@[simp] theorem State.setB_pc (v : Int) : (s.setB v).pc = s.pc := rfl
@[simp] theorem State.setB_acc (v : Int) : (s.setB v).acc = s.acc := rfl
@[simp] theorem State.setB_b (v : Int) : (s.setB v).b = v := rfl
@[simp] theorem State.setB_nf (v : Int) : (s.setB v).nf = s.nf := rfl
@[simp] theorem State.setB_cur (v : Int) : (s.setB v).cur = s.cur := rfl
@[simp] theorem State.setB_prog (v : Int) : (s.setB v).prog = s.prog := rfl
@[simp] theorem State.setB_mem (v : Int) : (s.setB v).mem = s.mem := rfl

@[simp] theorem State.setNf_ic (v : Bool) : (s.setNf v).ic = s.ic := rfl
@[simp] theorem State.setNf_pc (v : Bool) : (s.setNf v).pc = s.pc := rfl
@[simp] theorem State.setNf_acc (v : Bool) : (s.setNf v).acc = s.acc := rfl
@[simp] theorem State.setNf_b (v : Bool) : (s.setNf v).b = s.b := rfl
@[simp] theorem State.setNf_nf (v : Bool) : (s.setNf v).nf = v := rfl
@[simp] theorem State.setNf_cur (v : Bool) : (s.setNf v).cur = s.cur := rfl
@[simp] theorem State.setNf_prog (v : Bool) : (s.setNf v).prog = s.prog := rfl
@[simp] theorem State.setNf_mem (v : Bool) : (s.setNf v).mem = s.mem := rfl

@[simp] theorem State.advancePc_ic : s.advancePc.ic = s.ic := rfl
@[simp] theorem State.advancePc_pc : s.advancePc.pc = s.pc + 1 := rfl
@[simp] theorem State.advancePc_acc : s.advancePc.acc = s.acc := rfl
@[simp] theorem State.advancePc_b : s.advancePc.b = s.b := rfl
@[simp] theorem State.advancePc_nf : s.advancePc.nf = s.nf := rfl
@[simp] theorem State.advancePc_cur : s.advancePc.cur = s.cur := rfl
@[simp] theorem State.advancePc_prog : s.advancePc.prog = s.prog := rfl
@[simp] theorem State.advancePc_mem : s.advancePc.mem = s.mem := rfl

@[simp] theorem State.advanceIc_ic : s.advanceIc.ic = s.ic + 1 := rfl
@[simp] theorem State.advanceIc_pc : s.advanceIc.pc = s.pc := rfl
@[simp] theorem State.advanceIc_acc : s.advanceIc.acc = s.acc := rfl
@[simp] theorem State.advanceIc_b : s.advanceIc.b = s.b := rfl
@[simp] theorem State.advanceIc_nf : s.advanceIc.nf = s.nf := rfl
@[simp] theorem State.advanceIc_cur : s.advanceIc.cur = s.cur := rfl
@[simp] theorem State.advanceIc_prog : s.advanceIc.prog = s.prog := rfl
@[simp] theorem State.advanceIc_mem : s.advanceIc.mem = s.mem := rfl

@[simp] theorem State.jumpTo_ic (k : Nat) : (s.jumpTo k).ic = k := rfl
@[simp] theorem State.jumpTo_pc (k : Nat) : (s.jumpTo k).pc = k := rfl
@[simp] theorem State.jumpTo_acc (k : Nat) : (s.jumpTo k).acc = s.acc := rfl
@[simp] theorem State.jumpTo_b (k : Nat) : (s.jumpTo k).b = s.b := rfl
@[simp] theorem State.jumpTo_nf (k : Nat) : (s.jumpTo k).nf = s.nf := rfl
@[simp] theorem State.jumpTo_cur (k : Nat) : (s.jumpTo k).cur = s.cur := rfl
@[simp] theorem State.jumpTo_prog (k : Nat) : (s.jumpTo k).prog = s.prog := rfl
@[simp] theorem State.jumpTo_mem (k : Nat) : (s.jumpTo k).mem = s.mem := rfl

@[simp] theorem State.latch_ic (w : Text) : (s.latch w).ic = s.ic := rfl
@[simp] theorem State.latch_pc (w : Text) : (s.latch w).pc = s.pc := rfl
@[simp] theorem State.latch_acc (w : Text) : (s.latch w).acc = s.acc := rfl
@[simp] theorem State.latch_b (w : Text) : (s.latch w).b = s.b := rfl
@[simp] theorem State.latch_nf (w : Text) : (s.latch w).nf = s.nf := rfl
@[simp] theorem State.latch_cur (w : Text) : (s.latch w).cur = w := rfl
@[simp] theorem State.latch_prog (w : Text) : (s.latch w).prog = s.prog := rfl
@[simp] theorem State.latch_mem (w : Text) : (s.latch w).mem = s.mem := rfl

@[simp] theorem State.setProg_ic (l : List Text) : (s.setProg l).ic = s.ic := rfl
@[simp] theorem State.setProg_pc (l : List Text) : (s.setProg l).pc = s.pc := rfl
@[simp] theorem State.setProg_acc (l : List Text) : (s.setProg l).acc = s.acc := rfl
@[simp] theorem State.setProg_b (l : List Text) : (s.setProg l).b = s.b := rfl
@[simp] theorem State.setProg_nf (l : List Text) : (s.setProg l).nf = s.nf := rfl
@[simp] theorem State.setProg_cur (l : List Text) : (s.setProg l).cur = s.cur := rfl
@[simp] theorem State.setProg_prog (l : List Text) : (s.setProg l).prog = l := rfl
@[simp] theorem State.setProg_mem (l : List Text) : (s.setProg l).mem = s.mem := rfl

@[simp] theorem State.setMem_ic (m : Memory) : (s.setMem m).ic = s.ic := rfl
@[simp] theorem State.setMem_pc (m : Memory) : (s.setMem m).pc = s.pc := rfl
@[simp] theorem State.setMem_acc (m : Memory) : (s.setMem m).acc = s.acc := rfl
@[simp] theorem State.setMem_b (m : Memory) : (s.setMem m).b = s.b := rfl
@[simp] theorem State.setMem_nf (m : Memory) : (s.setMem m).nf = s.nf := rfl
@[simp] theorem State.setMem_cur (m : Memory) : (s.setMem m).cur = s.cur := rfl
@[simp] theorem State.setMem_prog (m : Memory) : (s.setMem m).prog = s.prog := rfl
@[simp] theorem State.setMem_mem (m : Memory) : (s.setMem m).mem = m := rfl

@[simp] theorem State.writeCell_ic (a : Addr) (c : Cell) : (s.writeCell a c).ic = s.ic := rfl
@[simp] theorem State.writeCell_pc (a : Addr) (c : Cell) : (s.writeCell a c).pc = s.pc := rfl
@[simp] theorem State.writeCell_acc (a : Addr) (c : Cell) : (s.writeCell a c).acc = s.acc := rfl
@[simp] theorem State.writeCell_b (a : Addr) (c : Cell) : (s.writeCell a c).b = s.b := rfl
@[simp] theorem State.writeCell_nf (a : Addr) (c : Cell) : (s.writeCell a c).nf = s.nf := rfl
@[simp] theorem State.writeCell_cur (a : Addr) (c : Cell) : (s.writeCell a c).cur = s.cur := rfl
@[simp] theorem State.writeCell_prog (a : Addr) (c : Cell) : (s.writeCell a c).prog = s.prog := rfl
@[simp] theorem State.writeCell_mem (a : Addr) (c : Cell) : (s.writeCell a c).mem = s.mem.write a c := rfl

@[simp] theorem State.storeValue_ic (a : Addr) (v : Text) : (s.storeValue a v).ic = s.ic := rfl
@[simp] theorem State.storeValue_pc (a : Addr) (v : Text) : (s.storeValue a v).pc = s.pc := rfl
@[simp] theorem State.storeValue_acc (a : Addr) (v : Text) : (s.storeValue a v).acc = s.acc := rfl
@[simp] theorem State.storeValue_b (a : Addr) (v : Text) : (s.storeValue a v).b = s.b := rfl
@[simp] theorem State.storeValue_nf (a : Addr) (v : Text) : (s.storeValue a v).nf = s.nf := rfl
@[simp] theorem State.storeValue_cur (a : Addr) (v : Text) : (s.storeValue a v).cur = s.cur := rfl
@[simp] theorem State.storeValue_prog (a : Addr) (v : Text) : (s.storeValue a v).prog = s.prog := rfl
@[simp] theorem State.storeValue_mem (a : Addr) (v : Text) : (s.storeValue a v).mem = s.mem.write a ⟨(s.mem.read a).label, v⟩ := rfl

@[simp] theorem State.applyAlu_ic (op : AluOp) : (s.applyAlu op).ic = s.ic := rfl
@[simp] theorem State.applyAlu_pc (op : AluOp) : (s.applyAlu op).pc = s.pc := rfl
@[simp] theorem State.applyAlu_b (op : AluOp) : (s.applyAlu op).b = s.b := rfl
@[simp] theorem State.applyAlu_cur (op : AluOp) : (s.applyAlu op).cur = s.cur := rfl
@[simp] theorem State.applyAlu_prog (op : AluOp) : (s.applyAlu op).prog = s.prog := rfl
@[simp] theorem State.applyAlu_mem (op : AluOp) : (s.applyAlu op).mem = s.mem := rfl

@[simp] theorem alu_add (a b : Int) (nf : Bool) : alu .add a b nf = (a + b, nf) := rfl

/-- `SUB` leaves the magnitude of the difference and its sign (R151). -/
@[simp] theorem alu_sub (a b : Int) (nf : Bool) : alu .sub a b nf = (|a - b|, decide (a < b)) := by
  by_cases h : a - b < 0
  · have h' : a < b := by omega
    simp only [alu, if_pos h, h', decide_true, abs_of_neg h]
  · have h' : ¬a < b := by omega
    simp only [alu, if_neg h, h', decide_false, abs_of_nonneg (Int.not_lt.mp h)]

@[simp] theorem State.applyAlu_add : s.applyAlu .add = s.setAcc (s.acc + s.b) := rfl

@[simp] theorem State.applyAlu_sub :
    s.applyAlu .sub = (s.setAcc |s.acc - s.b|).setNf (decide (s.acc < s.b)) := by
  simp only [State.applyAlu, alu_sub]

end Sys2Proof.Machine
end

