-- ==== Sys2Proof/Laws/Exec.lean ====
section
/-! SUPPORT. What executing an instruction can answer: one equation for each instruction that needs no operand, and for the
others one inversion that says every answer. -/

namespace Sys2Proof.Machine

@[simp] theorem raise_eq {α : Type} (f : Fault) : (raise f : Host.Outcome α Fault Refusal) = .fault f := rfl

theorem exec_add (s : State) : exec .add s = .next (s.setAcc (s.acc + s.b)).advancePc := rfl

theorem exec_sub (s : State) :
    exec .sub s = .next ((s.setAcc |s.acc - s.b|).setNf (decide (s.acc < s.b))).advancePc := by
  show Host.Outcome.next (s.applyAlu .sub).advancePc = _
  rw [State.applyAlu_sub]

theorem exec_mba (s : State) : exec .mba s = .next (s.setB s.acc).advancePc := rfl

theorem exec_hlt (s : State) : exec .hlt s = .next s.advancePc := rfl

/-- `LDA` always completes: it advances `PC`, and at most `ACC` changes besides. -/
theorem exec_lda (label : Text) (s : State) :
    (∃ v, loadOperand s.mem label = .ok v ∧ exec (.lda label) s = .next (s.setAcc v).advancePc) ∨
    (∃ tag, loadOperand s.mem label = .error tag ∧ exec (.lda label) s = .next s.advancePc) := by
  simp only [exec, execLda]
  cases loadOperand s.mem label with
  | ok v => exact .inl ⟨v, rfl, rfl⟩
  | error tag => exact .inr ⟨tag, rfl, rfl⟩

/-- `STA` always completes: it advances `PC`, and at most one cell's value changes besides. -/
theorem exec_sta (label : Text) (s : State) :
    (∃ a, lookupLabel s.mem label = some a ∧
      exec (.sta label) s = .next (s.storeValue a (intToString s.acc)).advancePc) ∨
    (lookupLabel s.mem label = none ∧ exec (.sta label) s = .next s.advancePc) := by
  simp only [exec, execSta]
  cases lookupLabel s.mem label with
  | some a => exact .inl ⟨a, rfl, rfl⟩
  | none => exact .inr ⟨rfl, rfl⟩

theorem jump_bad (s : State) : jump .bad s = .next s.advancePc := rfl

theorem jump_zero (s : State) : jump (.addr 0) s = .fault .invalidJumpTarget := rfl

theorem jump_addr {n : Nat} (h : 1 ≤ n) (s : State) : jump (.addr n) s = .next (s.jumpTo (n - 1)) := by
  obtain ⟨k, rfl⟩ := Nat.exists_eq_add_of_le' h
  rfl

theorem exec_jmp (t : Target) (s : State) : exec (.jmp t) s = jump t s := rfl

theorem exec_jn_set (t : Target) {s : State} (h : s.nf = true) : exec (.jn t) s = jump t s := by
  simp only [exec, execJn, h]

theorem exec_jn_clear (t : Target) {s : State} (h : s.nf = false) : exec (.jn t) s = .next s.advancePc := by
  simp only [exec, execJn, h]

/-- Every answer of every instruction: it completes by one of six updates, or it raises `InvalidJumpTarget`. -/
theorem exec_cases (i : Instr) (s : State) :
    (taken i s = false ∧ ∃ u, exec i s = .next u.advancePc ∧
      (u = s ∨ (∃ v, u = s.setAcc v) ∨ (i = .sub ∧ u = s.applyAlu .sub) ∨ (i = .mba ∧ u = s.setB s.acc) ∨
        ∃ a v, u = s.storeValue a v)) ∨
    (∃ n, 1 ≤ n ∧ taken i s = true ∧ (i = .jmp (.addr n) ∨ (i = .jn (.addr n) ∧ s.nf = true)) ∧
      exec i s = .next (s.jumpTo (n - 1))) ∨
    (taken i s = false ∧ (i = .jmp (.addr 0) ∨ (i = .jn (.addr 0) ∧ s.nf = true)) ∧
      exec i s = .fault .invalidJumpTarget) := by
  cases i with
  | lda label =>
    obtain ⟨v, -, h⟩ | ⟨tag, -, h⟩ := exec_lda label s
    · exact .inl ⟨rfl, _, h, .inr (.inl ⟨v, rfl⟩)⟩
    · exact .inl ⟨rfl, _, h, .inl rfl⟩
  | sta label =>
    obtain ⟨a, -, h⟩ | ⟨-, h⟩ := exec_sta label s
    · exact .inl ⟨rfl, _, h, .inr (.inr (.inr (.inr ⟨a, _, rfl⟩)))⟩
    · exact .inl ⟨rfl, _, h, .inl rfl⟩
  | add => exact .inl ⟨rfl, _, exec_add s, .inr (.inl ⟨_, rfl⟩)⟩
  | sub => exact .inl ⟨rfl, _, rfl, .inr (.inr (.inl ⟨rfl, rfl⟩))⟩
  | mba => exact .inl ⟨rfl, _, exec_mba s, .inr (.inr (.inr (.inl ⟨rfl, rfl⟩)))⟩
  | hlt => exact .inl ⟨rfl, _, exec_hlt s, .inl rfl⟩
  | jmp t =>
    obtain (_ | n) | _ := t
    · exact .inr (.inr ⟨rfl, .inl rfl, rfl⟩)
    · exact .inr (.inl ⟨n + 1, by omega, by simp [taken], .inl rfl, rfl⟩)
    · exact .inl ⟨rfl, _, rfl, .inl rfl⟩
  | jn t =>
    cases hn : s.nf with
    | true =>
      have he : ∀ t, exec (.jn t) s = jump t s := fun t => exec_jn_set t hn
      obtain (_ | n) | _ := t
      · exact .inr (.inr ⟨by simp [taken], .inr ⟨rfl, rfl⟩, he _⟩)
      · exact .inr (.inl ⟨n + 1, by omega, by simp [taken, hn], .inr ⟨rfl, rfl⟩, he _⟩)
      · exact .inl ⟨rfl, _, he _, .inl rfl⟩
    | false =>
      have he : ∀ t, exec (.jn t) s = .next s.advancePc := fun t => exec_jn_clear t hn
      refine .inl ⟨?_, _, he _, .inl rfl⟩
      cases t <;> simp [taken, hn]

/-- The select signal does not depend on the fetch latch. -/
@[simp] theorem taken_latch (i : Instr) (s : State) (w : Text) : taken i (s.latch w) = taken i s := by
  cases i with
  | jmp t => cases t <;> rfl
  | jn t => cases t <;> rfl
  | _ => rfl

/-- An instruction's answer does not depend on the fetch latch, which it carries along. -/
theorem exec_latch (i : Instr) (s : State) (w : Text) :
    exec i (s.latch w) = match exec i s with
      | .next t => .next (t.latch w)
      | .fault f => .fault f
      | .refused r => .refused r := by
  cases i with
  | lda label => simp only [exec, execLda, State.latch_mem]; cases loadOperand s.mem label <;> rfl
  | sta label => simp only [exec, execSta, State.latch_mem]; cases lookupLabel s.mem label <;> rfl
  | add => rfl
  | sub => rfl
  | mba => rfl
  | hlt => rfl
  | jmp t => obtain (_ | n) | _ := t <;> rfl
  | jn t =>
    cases hn : s.nf with
    | true =>
      rw [exec_jn_set t hn, exec_jn_set t (s := s.latch w) hn]
      obtain (_ | n) | _ := t <;> rfl
    | false => rw [exec_jn_clear t hn, exec_jn_clear t (s := s.latch w) hn]; rfl

end Sys2Proof.Machine
end

