-- ==== Sys2Proof/Laws/Operands.lean ====
section
/-! SUPPORT. What resolving an operand can answer. -/

namespace Sys2Proof.Machine

@[simp] theorem Cell.labelled_iff (c : Cell) (t : Text) : c.labelled t = true ↔ lower c.label = lower t := by
  simp [Cell.labelled]

/-- An address that `Lookup` answers carries the label. -/
theorem labelled_of_lookupLabel {m : Memory} {t : Text} {a : Addr} (h : lookupLabel m t = some a) :
    (m.read a).labelled t = true :=
  List.find?_some (p := fun a => (m.read a).labelled t) h

/-- `Lookup` answers `none` exactly when no cell carries the label. -/
theorem lookupLabel_eq_none_iff {m : Memory} {t : Text} :
    lookupLabel m t = none ↔ ∀ a, (m.read a).labelled t = false := by
  simp [lookupLabel, List.find?_eq_none, Cell.labelled]

/-- `Lookup` depends on the labels of memory alone. -/
theorem lookupLabel_congr {m n : Memory} (h : ∀ a, (m.read a).label = (n.read a).label) (t : Text) :
    lookupLabel m t = lookupLabel n t := by
  simp only [lookupLabel, Cell.labelled, h]

/-- The three answers of a load's operand. -/
theorem loadOperand_cases (m : Memory) (t : Text) :
    (lookupLabel m t = none ∧ loadOperand m t = .error .noOpUnmatchedLabel) ∨
    (∃ a, lookupLabel m t = some a ∧ parseInt (m.read a).value = none ∧
      loadOperand m t = .error .noOpUnparseableValue) ∨
    (∃ a v, lookupLabel m t = some a ∧ parseInt (m.read a).value = some v ∧ loadOperand m t = .ok v) := by
  unfold loadOperand
  cases ha : lookupLabel m t with
  | none => exact .inl ⟨rfl, rfl⟩
  | some a =>
    cases hv : parseInt (m.read a).value with
    | none => exact .inr (.inl ⟨a, rfl, hv, by simp [hv]⟩)
    | some v => exact .inr (.inr ⟨a, v, rfl, hv, by simp [hv]⟩)

end Sys2Proof.Machine
end

