-- ==== Sys2Proof/Laws/Text.lean ====
section
/-! SUPPORT. What trimming, splitting and encoding do: the tokens of a text built from tokens and whitespace. -/

namespace Sys2Proof

/-- The tokens of a text that has not been trimmed. -/
def pieces (s : Text) : List Text := (s.splitOnP isSpace).filter fun t => !t.isEmpty

/-- Whitespace separates: the pieces of what stands before it, then those of what stands after. -/
theorem pieces_append_space {c : Ch} (hc : isSpace c = true) (s r : Text) :
    pieces (s ++ c :: r) = pieces s ++ pieces r := by
  simp only [pieces, List.splitOnP_append_cons s r hc, List.filter_append]

@[simp] theorem pieces_nil : pieces [] = [] := rfl

theorem pieces_space_cons {c : Ch} (hc : isSpace c = true) (s : Text) : pieces (c :: s) = pieces s := by
  simpa using pieces_append_space hc [] s

/-- Whitespace in front adds no piece. -/
theorem pieces_spaces_append {ws : Text} (h : ws.all isSpace = true) (s : Text) : pieces (ws ++ s) = pieces s := by
  induction ws with
  | nil => rfl
  | cons c ws ih =>
    rw [List.all_cons, Bool.and_eq_true] at h
    rw [List.cons_append, pieces_space_cons h.1, ih h.2]

/-- A run of whitespace separates as one space does. -/
theorem pieces_append_spaces_append {ws : Text} (h : ws.all isSpace = true) (hne : ws ≠ []) (s r : Text) :
    pieces (s ++ ws ++ r) = pieces s ++ pieces r := by
  obtain ⟨c, ws, rfl⟩ := List.exists_cons_of_ne_nil hne
  rw [List.all_cons, Bool.and_eq_true] at h
  rw [List.append_assoc, List.cons_append, pieces_append_space h.1, pieces_spaces_append h.2]

/-- A non-empty run of characters that are no whitespace is one piece. -/
theorem pieces_token {t : Text} (h : labelWf t = true) : pieces t = [t] := by
  simp only [labelWf, Bool.and_eq_true, List.all_eq_true, Bool.not_eq_eq_eq_not, Bool.not_true] at h
  simp only [pieces, List.splitOnP_eq_singleton h.2]
  simp [h.1]

theorem pieces_dropWhile (s : Text) : pieces (s.dropWhile isSpace) = pieces s := by
  induction s with
  | nil => rfl
  | cons c s ih =>
    by_cases hc : isSpace c = true
    · rw [List.dropWhile_cons_of_pos hc, ih, pieces_space_cons hc]
    · rw [List.dropWhile_cons_of_neg hc]

theorem pieces_rdropWhile (s : Text) : pieces (s.rdropWhile isSpace) = pieces s := by
  induction s using List.reverseRecOn with
  | nil => rfl
  | append_singleton s c ih =>
    by_cases hc : isSpace c = true
    · rw [List.rdropWhile_concat_pos _ _ _ hc, ih, pieces_append_space hc s [], pieces_nil, List.append_nil]
    · rw [List.rdropWhile_concat_neg _ _ _ hc]

/-- Trimming takes no token away. -/
theorem tokens_eq_pieces (s : Text) : tokens s = pieces s := by
  show pieces (trim s) = pieces s
  rw [trim, pieces_rdropWhile, pieces_dropWhile]

/-- A text with a token in front, separated by whitespace, has that token and those of the rest. -/
theorem tokens_token_space {t : Text} (ht : labelWf t = true) {c : Ch} (hc : isSpace c = true) (r : Text) :
    tokens (t ++ c :: r) = t :: tokens r := by
  rw [tokens_eq_pieces, tokens_eq_pieces, pieces_append_space hc, pieces_token ht]
  rfl

theorem tokens_token {t : Text} (ht : labelWf t = true) : tokens t = [t] := by
  rw [tokens_eq_pieces, pieces_token ht]

/-- No character of a piece between two separators is itself a separator. -/
theorem no_space_of_mem_splitOnP {s t : Text} (h : t ∈ s.splitOnP isSpace) : ∀ c ∈ t, isSpace c = false := by
  induction s generalizing t with
  | nil =>
    rw [List.splitOnP_nil, List.mem_singleton] at h
    simp [h]
  | cons d s ih =>
    rw [List.splitOnP_cons_eq_if_modifyHead] at h
    split at h
    · obtain rfl | h := List.mem_cons.mp h
      · simp
      · exact ih h
    · obtain ⟨p, ps, hp⟩ := List.exists_cons_of_ne_nil (List.splitOnP_ne_nil isSpace s)
      rw [hp] at h ih
      obtain rfl | h := List.mem_cons.mp h
      · rintro c (_ | ⟨_, hc⟩)
        · simpa using ‹¬isSpace d = true›
        · exact ih (by simp) c hc
      · exact ih (by simp [h])

/-- Every token is one or more characters, none of them whitespace (R91). -/
theorem labelWf_of_mem_tokens {s t : Text} (h : t ∈ tokens s) : labelWf t = true := by
  obtain ⟨hm, he⟩ := List.mem_filter.mp h
  simp only [labelWf, Bool.and_eq_true, List.all_eq_true]
  exact ⟨he, fun c hc => by simp [no_space_of_mem_splitOnP hm c hc]⟩

theorem labelWf_mnemonic (op : Opcode) : labelWf (mnemonic op) = true := by cases op <;> decide

/-- A mnemonic is read back as its opcode. -/
@[simp] theorem opcodeOfToken_mnemonic (op : Opcode) : opcodeOfToken (mnemonic op) = some op := by cases op <;> decide

/-- Only the mnemonic of an opcode is read as it. -/
theorem eq_mnemonic_of_opcodeOfToken {m : Text} {op : Opcode} (h : opcodeOfToken m = some op) : m = mnemonic op :=
  (beq_iff_eq.mp (List.find?_some (p := fun o => mnemonic o == m) h)).symm

/-- No mnemonic is a line label. -/
@[simp] theorem isLineLabel_mnemonic (op : Opcode) : isLineLabel (mnemonic op) = false := by cases op <;> decide

/-- A digit the model writes depends on the units alone. -/
theorem digitCh_mod (n : Nat) : digitCh (n % 10) = digitCh n := by simp [digitCh]

/-- A digit the model writes is a decimal digit that denotes the units. -/
theorem digit_digitCh (n : Nat) : isDigit (digitCh n) = true ∧ digitValue (digitCh n) = n % 10 := by
  have key : ∀ k : Fin 10, isDigit (digitCh k.val) = true ∧ digitValue (digitCh k.val) = k.val := by decide
  rw [← digitCh_mod]
  exact key ⟨n % 10, Nat.mod_lt _ (by decide)⟩

/-- A decimal digit is the one written for its value. -/
theorem digitCh_digitValue : ∀ c : Ch, isDigit c = true → digitValue c ≤ 9 ∧ digitCh (digitValue c) = c := by decide

/-- A digit the model writes is no whitespace. -/
theorem isSpace_digitCh (n : Nat) : isSpace (digitCh n) = false := by
  have key : ∀ k : Fin 10, isSpace (Fin.ofNat 128 (0x30 + k.val)) = false := by decide
  exact key ⟨n % 10, Nat.mod_lt _ (by decide)⟩

theorem labelWf_targetToken (t : Target) : labelWf (targetToken t) = true := by
  cases t with
  | bad => decide
  | addr n => simp [targetToken, labelWf, isSpace_digitCh]

/-- The operand token of a well-formed instruction is a token. -/
theorem labelWf_of_mem_operandTokens {i : Instr} (hi : i.wf = true) {t : Text} (h : t ∈ operandTokens i) :
    labelWf t = true := by
  cases i <;> simp only [operandTokens, List.mem_singleton, List.not_mem_nil] at h
  case lda => exact h ▸ hi
  case sta => exact h ▸ hi
  case jmp => exact h ▸ labelWf_targetToken _
  case jn => exact h ▸ labelWf_targetToken _

end Sys2Proof
end

