-- ==== Sys2Proof/Laws/PerInstr.lean ====
section
/-! SUPPORT. Statements made for each instruction as syntax. `CanonicalTokens`: the canonical form of a well-formed instruction
(R93) has exactly the mnemonic and the operand tokens of its format (R92). -/

namespace Sys2Proof.Laws.CanonicalTokens

/-- The tokens of the canonical form are the mnemonic and the operand tokens, in order. -/
def Statement (i : Instr) : Prop := i.wf = true → tokens (encode i) = mnemonic i.opcode :: operandTokens i

/-- The canonical form of an instruction without operands. -/
theorem noOperand {i : Instr} (h : operandTokens i = []) : Statement i := fun _ => by
  rw [encode, h, List.flatMap_nil, List.append_nil, tokens_token (labelWf_mnemonic _)]

/-- The canonical form of an instruction with one operand. -/
theorem oneOperand {i : Instr} {t : Text} (h : operandTokens i = [t]) : Statement i := fun hi => by
  have ht : labelWf t = true := labelWf_of_mem_operandTokens hi (by simp [h])
  rw [encode, h, List.flatMap_cons, List.flatMap_nil, List.append_nil,
    tokens_token_space (labelWf_mnemonic _) (by decide), tokens_token ht]

theorem lda (label : Text) : Statement (.lda label) := oneOperand rfl

theorem sta (label : Text) : Statement (.sta label) := oneOperand rfl

theorem add : Statement .add := noOperand rfl

theorem sub : Statement .sub := noOperand rfl

theorem mba : Statement .mba := noOperand rfl

theorem jmp (target : Target) : Statement (.jmp target) := oneOperand rfl

theorem jn (target : Target) : Statement (.jn target) := oneOperand rfl

theorem hlt : Statement .hlt := noOperand rfl

end Sys2Proof.Laws.CanonicalTokens
end

