-- ==== Sys2Proof/Laws/Step.lean ====
section
/-! SUPPORT. What a step can answer, said once: the cases of fetching and decoding, and the equation of a step that has fetched
an instruction. -/

namespace Sys2Proof.Machine

/-- Fetching and decoding: past the end, an illegal word, or an instruction with its word latched. -/
theorem fetchDecode_cases (s : State) :
    (s.ended ∧ fetchDecode s = .error .programCompleted) ∨
    (∃ line e, s.prog[s.ic]? = some line ∧ decode (trim line) = .error e ∧
      fetchDecode s = .error .illegalInstruction) ∨
    (∃ line i, s.prog[s.ic]? = some line ∧ decode (trim line) = .ok i ∧
      fetchDecode s = .ok (i, s.latch (trim line))) := by
  unfold fetchDecode
  cases hl : s.prog[s.ic]? with
  | none => exact .inl ⟨List.getElem?_eq_none_iff.mp hl, rfl⟩
  | some line =>
    cases hd : decode (trim line) with
    | error e => exact .inr (.inl ⟨line, e, rfl, hd, by simp [hd]⟩)
    | ok i => exact .inr (.inr ⟨line, i, rfl, hd, by simp [hd]⟩)

/-- The step of a state whose line at the cursor decodes to an instruction. -/
theorem stepCall_of_line {s : State} {line : Text} {i : Instr} (hl : s.prog[s.ic]? = some line)
    (hd : decode (trim line) = .ok i) :
    stepCall s = match exec i (s.latch (trim line)) with
      | .next t => .next ⟨snapshot t, tagOf i (s.latch (trim line)), postIncrement i (s.latch (trim line)) t⟩
      | .fault f => .fault f
      | .refused r => .refused r := by
  have hf : fetchDecode s = .ok (i, s.latch (trim line)) := by simp [fetchDecode, hl, hd]
  rw [stepCall, hf] <;> rfl

/-- The tag does not depend on the fetch latch. -/
@[simp] theorem tagOf_latch (i : Instr) (s : State) (w : Text) : tagOf i (s.latch w) = tagOf i s := by
  cases i <;> rfl

/-- `step` is `stepCall` less the Snapshot and the tag. -/
theorem step_eq_of_stepCall (s : State) :
    step s = match stepCall s with
      | .next r => .next r.state
      | .fault f => .fault f
      | .refused r => .refused r := rfl

/-- Every answer of a step of an instruction that completes: the instruction ran on the latched state, and the cursor is
advanced unless the jump was taken. -/
theorem step_next_iff {s t : State} :
    step s = .next t ↔ ∃ line i u, s.prog[s.ic]? = some line ∧ decode (trim line) = .ok i ∧
      exec i (s.latch (trim line)) = .next u ∧ t = postIncrement i (s.latch (trim line)) u := by
  constructor
  · intro h
    obtain ⟨-, hf⟩ | ⟨line, e, -, -, hf⟩ | ⟨line, i, hl, hd, hf⟩ := fetchDecode_cases s
    · simp [step, stepCall, hf] at h
    · simp [step, stepCall, hf] at h
    · refine ⟨line, i, ?_⟩
      simp only [step, stepCall, hf] at h
      cases hx : exec i (s.latch (trim line)) with
      | next u =>
        rw [hx] at h
        injection h with h
        exact ⟨u, hl, hd, rfl, h.symm⟩
      | fault f => simp [hx] at h
      | refused r => simp [hx] at h
  · rintro ⟨line, i, u, hl, hd, hx, rfl⟩
    rw [step_eq_of_stepCall, stepCall_of_line hl hd, hx]

/-- Every answer of a step: the end of the program, an illegal word, a jump to line `00` that would be taken, or the state an
instruction leaves. -/
theorem step_cases (s : State) :
    (s.ended ∧ step s = .fault .programCompleted) ∨
    (∃ line e, s.prog[s.ic]? = some line ∧ decode (trim line) = .error e ∧ step s = .fault .illegalInstruction) ∨
    (∃ line i, s.prog[s.ic]? = some line ∧ decode (trim line) = .ok i ∧
      (i = .jmp (.addr 0) ∨ (i = .jn (.addr 0) ∧ s.nf = true)) ∧ step s = .fault .invalidJumpTarget) ∨
    (∃ line i u, s.prog[s.ic]? = some line ∧ decode (trim line) = .ok i ∧ exec i (s.latch (trim line)) = .next u ∧
      step s = .next (postIncrement i (s.latch (trim line)) u)) := by
  obtain ⟨he, hf⟩ | ⟨line, e, hl, hd, hf⟩ | ⟨line, i, hl, hd, -⟩ := fetchDecode_cases s
  · exact .inl ⟨he, by simp [step, stepCall, hf]⟩
  · exact .inr (.inl ⟨line, e, hl, hd, by simp [step, stepCall, hf]⟩)
  · have hs := stepCall_of_line hl hd
    obtain ⟨-, u, h, -⟩ | ⟨n, -, -, -, h⟩ | ⟨-, hi, h⟩ := exec_cases i (s.latch (trim line))
    · exact .inr (.inr (.inr ⟨line, i, _, hl, hd, h, by rw [step_eq_of_stepCall, hs, h]⟩))
    · exact .inr (.inr (.inr ⟨line, i, _, hl, hd, h, by rw [step_eq_of_stepCall, hs, h]⟩))
    · exact .inr (.inr (.inl ⟨line, i, hl, hd, hi, by rw [step_eq_of_stepCall, hs, h]⟩))

/-- What every step keeps, every run keeps. -/
theorem runFor_keeps {P : State → Prop} (hP : ∀ s t, P s → step s = .next t → P t) (m : Nat) (s : State) (h : P s) :
    P (runFor m s).state := by
  induction m generalizing s with
  | zero => exact h
  | succ m ih =>
    rw [runFor]
    cases hc : stepCall s with
    | next r => exact ih _ (hP _ _ h (by rw [step_eq_of_stepCall, hc]))
    | fault f => exact h
    | refused r => exact h

end Sys2Proof.Machine
end

