-- ==== Sys2Proof/Tests/Slice0.lean ====
section
/-! SUPPORT. Tests and witnesses. Expected results are the vectors of spec/95_test_vectors.md (named in each comment) or the
encodings of spec/30_encoding.md; a `witness_` theorem shows values that meet the hypotheses of the statement it names. -/

namespace Sys2Proof.Machine.Tests

/-- A state with one line of program, at slot 0, and the given registers and memory. -/
def one (line : String) (acc b : Int) (nf : Bool) (mem : Memory) : State :=
  { State.reset with prog := [txt line], acc := acc, b := b, nf := nf, mem := mem }

/-- A state as `one`, with ten lines and both cursors at slot 4 (the setting of vectors J1 to J16). -/
def fifth (line : String) (nf : Bool) : State :=
  { State.reset with prog := (List.replicate 10 (txt "HLT")).set 4 (txt line), ic := 4, pc := 4, nf := nf }

/-- A cell. -/
def cell (label value : String) : Cell := ⟨txt label, txt value⟩

/-- `IC PC ACC B NF` after a step. -/
def regs (s : State) : Option (Nat × Nat × Int × Int × Bool) :=
  (nextState? (step s)).map fun t => (t.ic, t.pc, t.acc, t.b, t.nf)

/-- The tag of a step. -/
def tag (s : State) : Option OutcomeTag :=
  match stepCall s with
  | .next r => some r.tag
  | _ => none

/-! ## Well-formedness: a term each check refuses, and the boundary it admits -/

theorem test_wf_refuses_empty_label : (Instr.lda []).wf = false := by decide
theorem test_wf_refuses_label_with_space : (Instr.sta (txt "a b")).wf = false := by decide
theorem test_wf_refuses_three_digit_line : (Instr.jmp (.addr 100)).wf = false := by decide
theorem test_wf_admits_boundaries :
    (Instr.jn (.addr 99)).wf = true ∧ (Instr.jmp .bad).wf = true ∧ (Instr.lda (txt "x")).wf = true := by decide
theorem test_memory_wf_refuses : ¬Memory.wf [(3, cell "a" "1"), (2, cell "b" "1")] ∧ ¬Memory.wf [(3, Cell.unset)] := by
  decide

/-! ## Decoding: words written out from R105 and the tables of 95_test_vectors.md 2.2 -/

theorem test_decode_lda : decode [0x4C, 0x44, 0x41, 0x20, 0x78] = .ok (.lda [0x78]) := by decide
theorem test_decode_sta : decode [0x53, 0x54, 0x41, 0x20, 0x79] = .ok (.sta [0x79]) := by decide
theorem test_decode_add : decode [0x41, 0x44, 0x44] = .ok .add := by decide
theorem test_decode_sub : decode [0x53, 0x55, 0x42] = .ok .sub := by decide
theorem test_decode_mba : decode [0x4D, 0x42, 0x41] = .ok .mba := by decide
theorem test_decode_jmp : decode [0x4A, 0x4D, 0x50, 0x20, 0x30, 0x34] = .ok (.jmp (.addr 4)) := by decide
theorem test_decode_jn : decode [0x4A, 0x4E, 0x20, 0x30, 0x37] = .ok (.jn (.addr 7)) := by decide
theorem test_decode_hlt : decode [0x48, 0x4C, 0x54] = .ok .hlt := by decide

theorem test_decode_layouts : decode (txt " ADD ") = .ok .add ∧ decode (txt "loop: LDA x") = .ok (.lda (txt "x")) ∧
    decode (txt "JN\t07") = .ok (.jn (.addr 7)) ∧ decode (txt ": ADD") = .ok .add ∧
    decode (txt "LDA x:") = .ok (.lda (txt "x:")) ∧ decode (txt "\tJN  15 ") = .ok (.jn (.addr 15)) := by decide

theorem test_decode_bad_targets : decode (txt "JMP 5") = .ok (.jmp .bad) ∧ decode (txt "JMP 005") = .ok (.jmp .bad) ∧
    decode (txt "JMP 1x") = .ok (.jmp .bad) ∧ decode (txt "JMP +1") = .ok (.jmp .bad) ∧
    decode (txt "JN 0A") = .ok (.jn .bad) := by decide

theorem test_decode_illegal : ([ "", "   ", "; c", "loop:", "lda x", "Add", "NOP", "ADDX", "ADD 5", "HLT ; stop", "LDA", "JN",
    "LDA x y", "JMP 01 ; back", "a: b: ADD", "loop:ADD", "JMP01", "x: y"].all
      fun w => (decode (txt w)).toOption.isNone) = true := by decide

/-- The canonical words of 95_test_vectors.md 2.2. -/
theorem test_encode : encode (.jmp (.addr 4)) = [0x4A, 0x4D, 0x50, 0x20, 0x30, 0x34] ∧
    encode (.jn (.addr 7)) = [0x4A, 0x4E, 0x20, 0x30, 0x37] ∧ encode (.lda [0x78]) = [0x4C, 0x44, 0x41, 0x20, 0x78] ∧
    encode .sub = [0x53, 0x55, 0x42] := by decide

/-- The rows of spec/opcode_table.json. -/
theorem test_table_rows : [(24, 0x4C4441), (24, 0x535441), (24, 0x414444), (24, 0x535542), (24, 0x4D4241), (24, 0x4A4D50),
    (16, 0x4A4E), (24, 0x484C54)].map (fun r => (decodeTableWord r.1 r.2).map Instr.opcode) =
    [some .lda, some .sta, some .add, some .sub, some .mba, some .jmp, some .jn, some .hlt] := by decide

theorem test_table_word_runs_first :
    ([(24, 0x4C4441), (24, 0x535441), (24, 0x414444), (24, 0x535542), (24, 0x4D4241), (24, 0x4A4D50), (16, 0x4A4E),
      (24, 0x484C54)].all fun r => (nextState? (step (State.reset.withFetchWord r.1 r.2))).isSome) = true := by decide

/-! ## Primitives: 95_test_vectors.md 2.1 and 2.7 -/

theorem test_tokens : tokens (txt "a:\tLDA\tx\n") = [txt "a:", txt "LDA", txt "x"] ∧ tokens (txt " \t\n") = [] ∧
    trim (txt "  ADD \t") = txt "ADD" ∧ trim (txt "LDA   x") = txt "LDA   x" := by decide

theorem test_parseInt : ["0", "10", "-4", "+7", "007", "-0", " 12 ", "\t5\n", "99999999999999999999999"].map
      (fun s => parseInt (txt s)) =
    [some 0, some 10, some (-4), some 7, some 7, some 0, some 12, some 5, some 99999999999999999999999] := by decide

theorem test_parseInt_fails : (["", "NULL", "null", "12abc", "0x1F", "1e3", "3.7", "- 5", "--5", "+", "-", "1 2"].all
      fun s => (parseInt (txt s)).isNone) = true := by decide

theorem test_intToString : intToString 0 = txt "0" ∧ intToString 15 = txt "15" ∧ intToString (-4) = txt "-4" ∧
    intToString 1000000000000000000000 = txt "1000000000000000000000" := by decide

theorem test_case_folding : lower (txt "Xy_9") = txt "xy_9" ∧ upper (txt "fG") = txt "FG" := by decide

theorem test_lookup : let m : Memory := [(5, cell "k" "7"), (9, cell "K" "9")]
    lookupLabel m (txt "K") = some 5 ∧ lookupLabel m (txt "null") = some 0 ∧ lookupLabel m (txt "kk") = none ∧
    lookupLabel (m.write 0 (cell "k" "1")) (txt "K") = some 0 ∧
    lookupLabel (m.write 0 (cell "k" "1")) (txt "NULL") = some 1 := by decide

theorem test_addresses : parseAddr (txt "0a") = some 10 ∧ parseAddr (txt "Ff") = some 255 ∧ addrName 10 = txt "0A" ∧
    (["A", "00A", "0x0A", "", " 0A", "a ", "FG", "0g", "-1", "100"].all fun a => (parseAddr (txt a)).isNone) = true := by
  decide

/-! ## Instructions: 95_test_vectors.md 2.3, 2.4, 2.5 -/

/-- L3. -/
theorem test_lda_negative : regs (one "LDA x" 5 0 true [(10, cell "X" "-4")]) = some (1, 1, -4, 0, true) := by decide

/-- L10. -/
theorem test_lda_first_match_unparseable :
    regs (one "LDA x" 5 0 false [(3, cell "x" "NULL"), (10, cell "X" "10")]) = some (1, 1, 5, 0, false) ∧
    tag (one "LDA x" 5 0 false [(3, cell "x" "NULL"), (10, cell "X" "10")]) = some .noOpUnparseableValue := by decide

/-- L13. -/
theorem test_sta_keeps_label : (nextState? (step (one "STA Y" (-4) 5 true [(1, cell "y" "0")]))).map State.mem =
    some [(1, cell "y" "-4")] := by decide

/-- L17, L15. -/
theorem test_sta_first_match : (nextState? (step (one "STA y" 7 0 false [(1, cell "y" "0"), (2, cell "Y" "0")]))).map State.mem =
      some [(1, cell "y" "7"), (2, cell "Y" "0")] ∧
    tag (one "STA y" 15 0 false []) = some .noOpUnmatchedLabel := by decide

/-- A5, A6. -/
theorem test_add : regs (one "ADD" 3 (-7) false []) = some (1, 1, -4, -7, false) ∧
    regs (one "ADD" (2 ^ 64) (2 ^ 64) false []) = some (1, 1, 2 ^ 65, 2 ^ 64, false) := by decide

/-- A7, A8, A9. -/
theorem test_sub : regs (one "SUB" 3 5 false []) = some (1, 1, 2, 5, true) ∧
    regs (one "SUB" 5 3 true []) = some (1, 1, 2, 3, false) ∧ regs (one "SUB" 5 5 true []) = some (1, 1, 0, 5, false) :=
  ⟨by decide, by decide, by decide⟩

/-- A12, A15. -/
theorem test_sub_negative : regs (one "SUB" (-4) 7 false []) = some (1, 1, 11, 7, true) ∧
    regs (one "SUB" (-7) (-4) false []) = some (1, 1, 3, -4, true) := by decide

/-- A17. -/
theorem test_mba : regs (one "MBA" (-4) 9 true []) = some (1, 1, -4, -4, true) := by decide

/-- J1, J5, J7. -/
theorem test_jmp : regs (fifth "JMP 01" false) = some (0, 0, 0, 0, false) ∧
    regs (fifth "JMP 99" true) = some (98, 98, 0, 0, true) ∧ regs (fifth "JMP 5" false) = some (5, 5, 0, 0, false) :=
  ⟨by decide, by decide, by decide⟩

/-- J6, and the priority of 95_test_vectors.md 2.6. -/
theorem test_jmp_zero : fault? (step (fifth "JMP 00" false)) = some .invalidJumpTarget ∧
    fault? (step (fifth "JMP 00 x" false)) = some .illegalInstruction := by decide

/-- J9, J10, J12. -/
theorem test_jn : regs (fifth "JN 07" true) = some (6, 6, 0, 0, true) ∧
    regs (fifth "JN 07" false) = some (5, 5, 0, 0, false) ∧ regs (fifth "JN 00" false) = some (5, 5, 0, 0, false) :=
  ⟨by decide, by decide, by decide⟩

/-- J11, J13, J14. -/
theorem test_jn_odd_operands : fault? (step (fifth "JN 00" true)) = some .invalidJumpTarget ∧
    tag (fifth "JN 5" true) = some .noOpBadTarget ∧ tag (fifth "JN 5" false) = some .success := by decide

/-- J16. -/
theorem test_hlt : regs (fifth "HLT" true) = some (5, 5, 0, 0, true) := by decide

/-! ## The cycle, the host: 95_test_vectors.md 2.6, 2.8, S2, S3 -/

/-- E1, E4. -/
theorem test_conditions : fault? (step State.reset) = some .programCompleted ∧
    fault? (step (one "" 7 2 true [])) = some .illegalInstruction := by decide

/-- J10 and J9: the Snapshot of a step is taken before the cursor advances. -/
theorem test_step_snapshot :
    (match stepCall (fifth "JN 07" false) with
      | .next r => decide (r.snapshot.ir = txt "4" ∧ r.snapshot.pc = txt "5")
      | _ => false) = true ∧
    (match stepCall (fifth "JN 07" true) with
      | .next r => decide (r.snapshot.ir = txt "6" ∧ r.snapshot.mar = txt "6" ∧ r.snapshot.nf = txt "1")
      | _ => false) = true := by decide

/-- S2, S3. -/
theorem test_setMemoryCell : setMemoryCell (txt "0a") (txt "X") (txt "10") State.reset =
      ⟨true, none, { State.reset with mem := [(10, cell "X" "10")] }⟩ ∧
    setMemoryCell (txt "FG") (txt "X") (txt "10") State.reset = ⟨false, some .invalidAddress, State.reset⟩ := by decide

/-- S11. -/
theorem test_lda_display : (getState (one "LDA x" 0 0 false [])).comments = txt "LDA\n(Load A)" ∧
    (getState (one "LDA x" 0 0 false [])).instructionSteps = txt "1. MAR <-- IR\n2. MDR <-- M(MAR)\n3. A <-- MDR" := by
  decide

/-- E8, E11. -/
theorem test_runs : (runFor 3 (one "; c" 0 0 false [])).stop = some (.raised .illegalInstruction) ∧
    (runBudgeted 5 (one "JMP 01" 0 0 false [])).stop = some (.raised .stepBudgetExceeded) := by decide

/-! ## Witnesses -/

/-- An answer that is a next state with a property. -/
theorem next_of {o : Answer} {p : State → Bool} (h : (nextState? o).any p = true) : ∃ t, o = .next t ∧ p t = true := by
  cases o with
  | next t => exact ⟨t, rfl, by simpa [nextState?] using h⟩
  | fault f => simp [nextState?] at h
  | refused r => simp [nextState?] at h

/-- A line at slot 0 that decodes to an instruction is fetched. -/
theorem fetches_of {s : State} {i : Instr} (h : ∃ line ∈ s.prog[s.ic]?, decode (trim line) = .ok i) : s.fetches i := h

theorem witness_StepRunsDecodedInstruction_taken :
    (one "JMP 01" 0 0 false []).prog[0]? = some (txt "JMP 01") ∧ decode (trim (txt "JMP 01")) = .ok (.jmp (.addr 1)) ∧
    (∃ t, exec (.jmp (.addr 1)) { one "JMP 01" 0 0 false [] with cur := txt "JMP 01" } = .next t ∧ (t.ic == 0) = true) ∧
    taken (.jmp (.addr 1)) (one "JMP 01" 0 0 false []) = true := ⟨by decide, by decide, next_of (by decide), by decide⟩

theorem witness_StepRunsDecodedInstruction_not_taken :
    (one "ADD" 1 2 false []).prog[0]? = some (txt "ADD") ∧ decode (trim (txt "ADD")) = .ok .add ∧
    (∃ t, exec .add { one "ADD" 1 2 false [] with cur := txt "ADD" } = .next t ∧ (t.acc == 3) = true) ∧
    taken .add (one "ADD" 1 2 false []) = false := ⟨by decide, by decide, next_of (by decide), by decide⟩

theorem witness_StepRunsDecodedInstruction_fault :
    (one "JMP 00" 0 0 false []).prog[0]? = some (txt "JMP 00") ∧ decode (trim (txt "JMP 00")) = .ok (.jmp (.addr 0)) ∧
    exec (.jmp (.addr 0)) { one "JMP 00" 0 0 false [] with cur := txt "JMP 00" } = .fault .invalidJumpTarget :=
  ⟨by decide, by decide, rfl⟩

theorem witness_ProgramCompletedExactlyPastEnd :
    State.reset.prog.length ≤ State.reset.ic ∧ ¬(one "ADD" 0 0 false []).prog.length ≤ (one "ADD" 0 0 false []).ic := by decide

theorem witness_IllegalInstructionExactlyOnIllegalWord :
    step (one "lda x" 0 0 false []) = .fault .illegalInstruction := rfl

theorem witness_InvalidJumpTargetExactlyOnLineZero :
    step (one "JMP 00" 0 0 false []) = .fault .invalidJumpTarget ∧
    step (one "JN 00" 0 0 true []) = .fault .invalidJumpTarget := ⟨rfl, rfl⟩

/-- The two ends of the range of line numbers, and a step that falls through. -/
theorem witness_NetEffectOnCursors :
    (∃ t, step (one "JMP 01" 0 0 false []) = .next t ∧ (t.ic == 0) = true) ∧
    (∃ t, step (one "JN 99" 0 0 true []) = .next t ∧ (t.ic == 98) = true) ∧
    (∃ t, step (one "JN 99" 0 0 false []) = .next t ∧ (t.ic == 1) = true) :=
  ⟨next_of (by decide), next_of (by decide), next_of (by decide)⟩

theorem witness_TakenJumpReachesItsLine :
    (one "JMP 01" 0 0 false []).fetches (.jmp (.addr 1)) ∧ (one "JN 99" 0 0 true []).fetches (.jn (.addr 99)) ∧
    (one "JN 99" 0 0 true []).nf = true ∧ (one "JMP 01" 0 0 false []).prog[1 - 1]? = some (txt "JMP 01") ∧
    decode (trim (txt "JMP 01")) = .ok (.jmp (.addr 1)) :=
  ⟨⟨txt "JMP 01", by decide, by decide⟩, ⟨txt "JN 99", by decide, by decide⟩, rfl, by decide, by decide⟩

/-- A memory whose only labelled cell is the last one. -/
def lastCell : Memory := [(255, cell "Y" "NULL")]

/-- Below its last cell that memory holds unset cells only. -/
theorem lastCell_below : ∀ b < (255 : Addr), lower (lastCell.read b).label ≠ lower (txt "y") := fun b hb => by
  rw [lastCell, Memory.read_cons, if_neg (ne_of_lt hb), Memory.read_nil]
  decide

/-- A first match at the lowest address, with a value that parses, and at the highest, with one that does not. -/
theorem witness_LdaLoadsFirstMatch_match :
    lower (Memory.read [(0, cell "x" "5")] 0).label = lower (txt "X") ∧
    (∀ b < (0 : Addr), lower (Memory.read [(0, cell "x" "5")] b).label ≠ lower (txt "X")) ∧
    parseInt (Memory.read [(0, cell "x" "5")] 0).value = some 5 ∧
    lower (lastCell.read 255).label = lower (txt "y") ∧ parseInt (lastCell.read 255).value = none :=
  ⟨by decide, fun _ hb => absurd hb (Fin.not_lt_zero _), by decide, by decide, by decide⟩

/-- No cell so labelled: the hypothesis of the last clause of `LdaLoadsFirstMatch` and of `StaStoresFirstMatch`. -/
theorem witness_LdaLoadsFirstMatch_no_match : ∀ a, lower (Memory.read [] a).label ≠ lower (txt "x") := fun a => by
  rw [Memory.read_nil]
  decide

theorem witness_StaStoresFirstMatch_match :
    lower (lastCell.read 255).label = lower (txt "y") ∧
    ∀ b < (255 : Addr), lower (lastCell.read b).label ≠ lower (txt "y") := ⟨by decide, lastCell_below⟩

theorem witness_SubStoresMagnitudeAndSign :
    (one "SUB" 0 1 false []).acc - (one "SUB" 0 1 false []).b < 0 ∧
    0 ≤ (one "SUB" 1 1 false []).acc - (one "SUB" 1 1 false []).b := by decide

theorem witness_HltIsNoOperation :
    (one "HLT" 0 0 false []).fetches .hlt ∧ (one "HLT" 0 0 false []).ic + 1 = (one "HLT" 0 0 false []).prog.length :=
  ⟨⟨txt "HLT", by decide, by decide⟩, by decide⟩

theorem witness_MbaCopiesAccToB :
    ∃ t, exec .mba (one "MBA" 1 2 false []) = .next t ∧ (t.b != (one "MBA" 1 2 false []).b) = true := next_of (by decide)

/-- The least line number that a jump is taken to. -/
theorem witness_JmpCompletes : 1 ≤ 1 ∧ taken (.jmp (.addr 1)) (one "JMP 01" 0 0 false []) = true := by decide

/-- Both values of the flag. -/
theorem witness_JnCompletes : (one "JN 01" 0 0 true []).nf = true ∧ (one "JN 01" 0 0 false []).nf = false ∧ 1 ≤ 1 := by decide

theorem witness_JumpToLineZeroRaises : (one "JN 00" 0 0 true []).nf = true := rfl

/-- Next states of `ADD` and of `SUB` with the flag set and with it clear. -/
theorem witness_ArithmeticIsExact :
    (∃ t, exec .add (one "ADD" 1 2 false []) = .next t ∧ (t.acc == 3) = true) ∧
    (∃ t, exec .sub (one "SUB" 1 2 false []) = .next t ∧ t.nf = true) ∧
    (∃ t, exec .sub (one "SUB" 2 2 false []) = .next t ∧ (!t.nf) = true) :=
  ⟨next_of (by decide), next_of (by decide), next_of (by decide)⟩

/-- Two instructions that between them meet every clause's hypothesis of the frame statement. -/
theorem witness_FrameOfInstructionsThatStoreNothing :
    (∃ t, exec .mba (one "MBA" 1 2 false []) = .next t ∧ (t.b == 1) = true) ∧
    (∃ t, exec .add (one "ADD" 1 2 false []) = .next t ∧ (t.b == 2) = true) ∧ (∀ l, Instr.mba ≠ .sta l) ∧
    (∀ l, Instr.mba ≠ .lda l) ∧ Instr.mba ≠ .add ∧ Instr.mba ≠ .sub ∧ Instr.add ≠ .mba ∧ (∀ l, Instr.add ≠ .sta l) ∧
    (∀ g, Instr.mba ≠ .jmp g) ∧ (∀ g, Instr.mba ≠ .jn g) :=
  ⟨next_of (by decide), next_of (by decide), by simp, by simp, by simp, by simp, by simp, by simp, by simp, by simp⟩

theorem witness_FrameOfSta :
    (∃ t, exec (.sta (txt "y")) (one "STA y" 7 0 false [(1, cell "y" "0")]) = .next t ∧
      (t.mem.read 1 == cell "y" "7") = true) ∧
    lookupLabel [(1, cell "y" "0")] (txt "y") = some 1 ∧
    (∃ t, exec (.sta (txt "y")) (one "STA y" 7 0 false []) = .next t ∧ (t.mem == []) = true) ∧
    lookupLabel [] (txt "y") = none := ⟨next_of (by decide), by decide, next_of (by decide), by decide⟩

/-- A step that changes each piece of state. -/
theorem witness_StepWritersOfEachCell :
    (∃ t, step (one "SUB" 5 7 false []) = .next t ∧ (t.nf != false && t.acc != 5) = true) ∧
    (∃ t, step (one "MBA" 1 2 false []) = .next t ∧ (t.b != 2) = true) ∧
    (∃ t, step (one "STA NULL" 7 0 false []) = .next t ∧ (t.mem != []) = true) :=
  ⟨next_of (by decide), next_of (by decide), next_of (by decide)⟩

theorem witness_StepChangesAtMostOneValue :
    ∃ t, step (one "STA NULL" 7 0 false []) = .next t ∧ (t.mem.read 0 != Memory.read [] 0) = true := next_of (by decide)

theorem witness_StepKeepsCursorsEqualAndMemoryCanonical :
    (one "STA NULL" 7 0 false []).Inv ∧ ∃ t, step (one "STA NULL" 7 0 false []) = .next t ∧ (t.mem != []) = true :=
  ⟨⟨rfl, Memory.wf_nil⟩, next_of (by decide)⟩

theorem witness_OperationsKeepCursorsEqualAndMemoryCanonical :
    (operate (.setMemoryCell (txt "0a") (txt "X") (txt "10")) State.reset).Inv := ⟨rfl, by decide⟩

theorem witness_ReachableStatesHaveEqualCursors :
    Reachable (operate .step (operate (.submitCode [txt "HLT"]) State.reset)) :=
  .operate _ (.operate _ .reset)

theorem witness_PcIsNeverRead : (one "JN 99" 0 0 true []).sameButPc { one "JN 99" 0 0 true [] with pc := 7 } := rfl

theorem witness_NoOpTagsChangeOnlyCursors :
    tag (one "LDA x" 0 0 false []) = some .noOpUnmatchedLabel ∧
    tag (one "LDA x" 0 0 false [(0, cell "x" "")]) = some .noOpUnparseableValue ∧
    tag (one "JMP 5" 0 0 false []) = some .noOpBadTarget := by decide

theorem witness_DecodeOfEncode : (Instr.sta (txt "x:")).wf = true ∧ (Instr.jmp (.addr 0)).wf = true ∧
    (Instr.jn (.addr 99)).wf = true ∧ (Instr.jmp .bad).wf = true := by decide

theorem witness_DecodedIsWellFormed : decode (txt "JMP 99") = .ok (.jmp (.addr 99)) := by decide

theorem witness_LayoutAndLineLabelIgnored :
    (Instr.jn (.addr 15)).wf = true ∧ (txt "").all (fun c => !isSpace c) = true ∧ (txt "\t").all isSpace = true ∧
    (txt "  ").all isSpace = true ∧ txt "  " ≠ [] ∧ (txt " ").all isSpace = true ∧
    operandTokens (.jn (.addr 15)) = [txt "15"] := by decide

theorem witness_OnlyTokenLabelsAreReached :
    decode (txt "LDA x") = .ok (.lda (txt "x")) ∧ lookupLabel [(1, cell "X" "0")] (txt "x") = some 1 := by decide

theorem witness_LoadAfterStore :
    lookupLabel (one "STA y" 7 0 false [(1, cell "y" "0")]).mem (txt "y") ≠ none ∧
    (∃ t, exec (.sta (txt "y")) (one "STA y" 7 0 false [(1, cell "y" "0")]) = .next t ∧
      (t.mem == [(1, cell "y" "7")]) = true) ∧ lower (txt "Y") = lower (txt "y") :=
  ⟨by decide, next_of (by decide), by decide⟩

theorem witness_ResetRestoresEverything :
    Operation.getState ≠ .reset ∧ Operation.getState ≠ .step ∧ ∀ m, Operation.getState ≠ .runToCompletion m := by simp

/-- The two ends of the range of addresses, and an address that is none of the 256. -/
theorem witness_SetMemoryCellWritesTheNamedCell :
    upper (txt "00") = addrName 0 ∧ upper (txt "ff") = addrName 255 ∧ ∀ k, upper (txt "FG") ≠ addrName k := by
  have key : ∀ d : Fin 16, (0x47 : Ch) ≠ hexCh d.val := by decide
  refine ⟨by decide, by decide, fun k h => key ⟨k.val % 16, Nat.mod_lt _ (by decide)⟩ ?_⟩
  have hu : upper (txt "FG") = [0x46, 0x47] := by decide
  rw [hu, addrName] at h
  exact (List.cons.inj (List.cons.inj h).2).1

theorem witness_SnapshotDeterminesVisibleState :
    getState (one "ADD" 1 2 false []) = getState { one "ADD" 1 2 false [] with cur := txt "x" } := rfl

theorem witness_StepSnapshotIsTakenBeforeTheIncrement :
    (one "JMP 01" 0 0 false []).fetches (.jmp (.addr 1)) ∧ tag (one "JMP 01" 0 0 false []) = some .success ∧
    taken (.jmp (.addr 1)) (one "JMP 01" 0 0 false []) = true ∧
    (one "ADD" 0 0 false []).fetches .add ∧ tag (one "ADD" 0 0 false []) = some .success ∧
    taken .add (one "ADD" 0 0 false []) = false :=
  ⟨⟨txt "JMP 01", by decide, by decide⟩, by decide, by decide, ⟨txt "ADD", by decide, by decide⟩, by decide, by decide⟩

theorem witness_StoppedRunsStayStopped :
    (runFor 2 (one "ADD" 0 0 false [])).stop = some (.raised .programCompleted) := by decide

/-- A run of one step, with a budget above its length and one that is not. -/
theorem witness_BudgetOnlyCutsRunsShort :
    runReturns none (one "ADD" 0 0 false []) (runFor 2 (one "ADD" 0 0 false [])) ∧
    (runFor 2 (one "ADD" 0 0 false [])).snapshots.length = 1 := ⟨⟨by decide, 2, rfl⟩, by decide⟩

theorem witness_SelfJumpNeverEnds : (one "JMP 01" 0 0 false []).fetches (.jmp (.addr ((one "JMP 01" 0 0 false []).ic + 1))) :=
  ⟨txt "JMP 01", by decide, by decide⟩

/-- Premises for FF with a later call that fails, and for 01, which no call names; two calls to one cell, in either case. -/
theorem witness_LaunchedMemoryIsAsTheCallsWroteIt :
    upper (txt "ff") = addrName 255 ∧ (∀ c ∈ [(txt "FG", txt "x", txt "1")], upper c.1 ≠ addrName 255) ∧
    (∀ c ∈ [(txt "00", txt "a", txt "1"), (txt "ff", txt "b", txt "2"), (txt "FG", txt "x", txt "1")],
      upper c.1 ≠ addrName 1) ∧
    (launch [(txt "0a", txt "a", txt "1"), (txt "0A", txt "b", txt "2")] []).mem.read 10 = ⟨txt "b", txt "2"⟩ := by
  decide

end Sys2Proof.Machine.Tests
end

/-! The scope family: what `Lookup` answers (R14), what `ParseInt` reads (R18), and that it reads `IntToString` back (R19). -/

namespace Sys2Proof.Machine

/-! ## Lookup -/

/-- `Lookup` is the library's search of `Fin n` for the lowest index that satisfies a test. -/
theorem lookupLabel_eq_find? (m : Memory) (t : Text) :
    lookupLabel m t = Fin.find? fun a => (m.read a).labelled t :=
  Fin.find?_eq_find?_finRange.symm

/-- Settles O37: the answer of the library's search, read as equality of labels. -/
theorem lookupIsFirstMatch : Obligations.LookupIsFirstMatch := by
  intro m t
  constructor
  · intro a
    rw [lookupLabel_eq_find?, Fin.find?_eq_some_iff]
    simp [Cell.labelled]
  · simp [lookupLabel_eq_none_iff, Cell.labelled]

/-! ## What `ParseInt` reads -/

/-- The number that reading the digits `ds` arrives at, when those before them were read as `n`. -/
def readOn (n : Nat) (ds : Text) : Nat := ds.foldl (fun n d => 10 * n + digitValue d) n

theorem readOn_cons (n : Nat) (c : Ch) (ds : Text) : readOn n (c :: ds) = readOn (10 * n + digitValue c) ds := by
  rw [readOn, List.foldl_cons, readOn]

/-- Reading from the left is base ten with the last digit as the units. -/
theorem readOn_zero_eq_ofDigits (ds : Text) : readOn 0 ds = Nat.ofDigits 10 (ds.reverse.map digitValue) := by
  simp only [readOn, Nat.ofDigits_eq_foldr, List.foldr_map, List.foldr_reverse, Nat.cast_id, Nat.add_comm]

/-- The unsigned reading accepts exactly the non-empty runs of digits. -/
theorem parseNat_eq_some_iff {ds : Text} {n : Nat} :
    parseNat ds = some n ↔ ds ≠ [] ∧ ds.all isDigit = true ∧ n = readOn 0 ds := by
  rw [parseNat, eq_comm (a := n)]
  simp [readOn, and_assoc]

/-- `ParseInt` of a text that trims to nothing or to an unsigned run of digits. -/
theorem parseInt_of_trim_digits {s ds : Text} (h : trim s = ds) (hd : ds.all isDigit = true) :
    parseInt s = (parseNat ds).map fun n : Nat => (n : Int) := by
  cases ds with
  | nil => simp [parseInt, h, parseNat]
  | cons c ds =>
    have hc : isDigit c = true := List.all_eq_true.mp hd c List.mem_cons_self
    have hminus : c ≠ 0x2D := by rintro rfl; exact absurd hc (by decide)
    have hplus : c ≠ 0x2B := by rintro rfl; exact absurd hc (by decide)
    simp [parseInt, h, hminus, hplus]

/-- `ParseInt` of a text that trims to something behind `+`. -/
theorem parseInt_of_trim_plus {s ds : Text} (h : trim s = 0x2B :: ds) :
    parseInt s = (parseNat ds).map fun n : Nat => (n : Int) := by
  simp [parseInt, h]

/-- `ParseInt` of a text that trims to something behind `-`. -/
theorem parseInt_of_trim_minus {s ds : Text} (h : trim s = 0x2D :: ds) :
    parseInt s = (parseNat ds).map fun n : Nat => -(n : Int) := by
  simp [parseInt, h]

/-- The three forms `ParseInt` accepts, over the unsigned reading of the digits (R18). -/
theorem parseInt_eq_some_iff {s : Text} {v : Int} :
    parseInt s = some v ↔ ∃ (ds : Text) (n : Nat), parseNat ds = some n ∧
      ((trim s = ds ∧ v = n) ∨ (trim s = 0x2B :: ds ∧ v = n) ∨ (trim s = 0x2D :: ds ∧ v = -(n : Int))) := by
  constructor
  · intro h
    unfold parseInt at h
    split at h
    · cases h
    next c ds hs =>
      split_ifs at h with hminus hplus <;> obtain ⟨n, hn, rfl⟩ := Option.map_eq_some_iff.mp h
      · exact ⟨ds, n, hn, .inr (.inr ⟨hminus ▸ hs, rfl⟩)⟩
      · exact ⟨ds, n, hn, .inr (.inl ⟨hplus ▸ hs, rfl⟩)⟩
      · exact ⟨c :: ds, n, hn, .inl ⟨hs, rfl⟩⟩
  · rintro ⟨ds, n, hn, ⟨hs, rfl⟩ | ⟨hs, rfl⟩ | ⟨hs, rfl⟩⟩
    · obtain ⟨-, hd, -⟩ := parseNat_eq_some_iff.mp hn
      rw [parseInt_of_trim_digits hs hd, hn, Option.map_some]
    · rw [parseInt_of_trim_plus hs, hn, Option.map_some]
    · rw [parseInt_of_trim_minus hs, hn, Option.map_some]

/-- Settles O40: the three forms of `parseInt_eq_some_iff`, each with the reading of its digits. -/
theorem parsesExactlyStrictDecimals : Obligations.ParsesExactlyStrictDecimals := by
  intro s v
  simp only [parseInt_eq_some_iff, parseNat_eq_some_iff, readOn_zero_eq_ofDigits, and_assoc, exists_and_left, exists_eq_left]

/-! ## What `IntToString` writes -/

/-- What `digitsFrom` writes is decimal digits alone. -/
theorem all_isDigit_digitsFrom {rest : Text} (h : rest.all isDigit = true) (fuel n : Nat) :
    (digitsFrom fuel n rest).all isDigit = true := by
  induction fuel generalizing n rest with
  | zero => exact h
  | succ fuel ih =>
    have hcons : (digitCh n :: rest).all isDigit = true := by
      rw [List.all_cons, (digit_digitCh n).1, h, Bool.and_true]
    unfold digitsFrom
    split_ifs
    · exact hcons
    · exact ih hcons _

/-- Reading what `digitsFrom` writes in front of `rest` arrives at `rest` with the number written: each round takes the units
off `n`, and the reader puts them back. -/
theorem readOn_zero_digitsFrom {fuel n : Nat} (h : n < fuel) (rest : Text) :
    readOn 0 (digitsFrom fuel n rest) = readOn n rest := by
  induction fuel generalizing n rest with
  | zero => omega
  | succ fuel ih =>
    unfold digitsFrom
    split_ifs with hn
    · rw [readOn_cons, (digit_digitCh n).2, Nat.mod_eq_of_lt hn, Nat.mul_zero, Nat.zero_add]
    · rw [ih (by omega), readOn_cons, (digit_digitCh n).2, Nat.div_add_mod]

/-- The unsigned reading of the numeral of `n` is `n`. -/
theorem parseNat_natToString (n : Nat) : parseNat (natToString n) = some n := by
  have hval : readOn 0 (natToString n) = n := readOn_zero_digitsFrom (Nat.lt_succ_self n) []
  have hdigits : (natToString n).all isDigit = true := all_isDigit_digitsFrom rfl _ n
  have hne : natToString n ≠ [] := by
    -- An empty numeral would read as 0, and that of 0 is `0`.
    intro hnil
    obtain rfl : 0 = n := by rwa [hnil] at hval
    exact absurd hnil (by decide)
  exact parseNat_eq_some_iff.mpr ⟨hne, hdigits, hval.symm⟩

/-- A text without whitespace is left as it is by `trim`. -/
theorem trim_eq_self {s : Text} (h : ∀ c ∈ s, isSpace c = false) : trim s = s := by
  have hfront : s.dropWhile isSpace = s :=
    List.dropWhile_eq_self_iff.mpr fun hl => by simp [h _ (List.getElem_mem hl)]
  rw [trim, hfront]
  exact List.rdropWhile_eq_self_iff.mpr fun hl => by simp [h _ (List.getLast_mem hl)]

/-- A decimal digit is no whitespace. -/
theorem isSpace_of_isDigit : ∀ c : Ch, isDigit c = true → isSpace c = false := by decide

theorem isSpace_of_mem_natToString {n : Nat} {c : Ch} (h : c ∈ natToString n) : isSpace c = false :=
  isSpace_of_isDigit c (List.all_eq_true.mp (all_isDigit_digitsFrom rfl _ n) c h)

/-- `trim` takes nothing off a numeral. -/
theorem trim_intToString (v : Int) : trim (intToString v) = intToString v := by
  apply trim_eq_self
  cases v with
  | ofNat n => exact fun c hc => isSpace_of_mem_natToString hc
  | negSucc n =>
    rintro c (_ | ⟨_, hc⟩)
    · decide
    · exact isSpace_of_mem_natToString hc

/-- Settles O39: a numeral survives `trim`, and `ParseInt` reads the digits behind its sign back. -/
theorem parseOfNumeral : Obligations.ParseOfNumeral := by
  intro v
  rw [parseInt_eq_some_iff, trim_intToString]
  cases v with
  | ofNat n => exact ⟨natToString n, n, parseNat_natToString n, .inl ⟨rfl, rfl⟩⟩
  | negSucc n => exact ⟨natToString (n + 1), n + 1, parseNat_natToString _, .inr (.inr ⟨rfl, rfl⟩)⟩

end Sys2Proof.Machine


/-! The state family: what an instruction and a step write (R30-R40), the invariant that every operation keeps (R33), and the
two pieces of state that nothing reads, `PC` (R32) and what `CUR` held before a step (R36). -/

namespace Sys2Proof.Machine

/-! ## What an instruction writes -/

/-- A jump that is not refused falls through or moves both cursors. -/
theorem jump_next_cases {g : Target} {s t : State} (h : jump g s = .next t) :
    t = s.advancePc ∨ ∃ k, t = s.jumpTo k := by
  obtain (_ | k) | _ := g
  · cases h
  · cases h
    exact .inr ⟨k, rfl⟩
  · cases h
    exact .inl rfl

/-- Every state that an instruction leaves, with the instruction that leaves it: both cursors moved by a jump, or `PC` advanced
after at most one update. -/
theorem exec_next_cases {i : Instr} {s t : State} (h : exec i s = .next t) :
    (((∃ g, i = .jmp g) ∨ ∃ g, i = .jn g) ∧ ∃ k, t = s.jumpTo k) ∨
    ∃ u, t = u.advancePc ∧ (u = s ∨ (((∃ label, i = .lda label) ∨ i = .add) ∧ ∃ v, u = s.setAcc v) ∨
      (i = .sub ∧ u = s.applyAlu .sub) ∨ (i = .mba ∧ u = s.setB s.acc) ∨
      ∃ label a, i = .sta label ∧ u = s.storeValue a (intToString s.acc)) := by
  cases i with
  | lda label =>
    obtain ⟨v, -, hx⟩ | ⟨tag, -, hx⟩ := exec_lda label s <;> cases hx.symm.trans h
    · exact .inr ⟨_, rfl, .inr (.inl ⟨.inl ⟨label, rfl⟩, v, rfl⟩)⟩
    · exact .inr ⟨_, rfl, .inl rfl⟩
  | sta label =>
    obtain ⟨a, -, hx⟩ | ⟨-, hx⟩ := exec_sta label s <;> cases hx.symm.trans h
    · exact .inr ⟨_, rfl, .inr (.inr (.inr (.inr ⟨label, a, rfl, rfl⟩)))⟩
    · exact .inr ⟨_, rfl, .inl rfl⟩
  | add =>
    cases (exec_add s).symm.trans h
    exact .inr ⟨_, rfl, .inr (.inl ⟨.inr rfl, _, rfl⟩)⟩
  | sub =>
    cases h
    exact .inr ⟨_, rfl, .inr (.inr (.inl ⟨rfl, rfl⟩))⟩
  | mba =>
    cases (exec_mba s).symm.trans h
    exact .inr ⟨_, rfl, .inr (.inr (.inr (.inl ⟨rfl, rfl⟩)))⟩
  | hlt =>
    cases (exec_hlt s).symm.trans h
    exact .inr ⟨_, rfl, .inl rfl⟩
  | jmp g =>
    obtain rfl | hk := jump_next_cases h
    · exact .inr ⟨_, rfl, .inl rfl⟩
    · exact .inl ⟨.inl ⟨g, rfl⟩, hk⟩
  | jn g =>
    cases hn : s.nf with
    | true =>
      obtain rfl | hk := jump_next_cases ((exec_jn_set g hn).symm.trans h)
      · exact .inr ⟨_, rfl, .inl rfl⟩
      · exact .inl ⟨.inr ⟨g, rfl⟩, hk⟩
    | false =>
      cases (exec_jn_clear g hn).symm.trans h
      exact .inr ⟨_, rfl, .inl rfl⟩

/-- `t` differs from `s`, but for the cursors and the latch, only in what the instruction `i` writes. -/
structure Frame (i : Instr) (s t : State) : Prop where
  prog : t.prog = s.prog
  mem : t.mem = s.mem ∨
    ∃ label a, i = .sta label ∧ t.mem = s.mem.write a ⟨(s.mem.read a).label, intToString s.acc⟩
  acc : t.acc = s.acc ∨ (∃ label, i = .lda label) ∨ i = .add ∨ i = .sub
  b : t.b = s.b ∨ (i = .mba ∧ t.b = s.acc)
  nf : t.nf = s.nf ∨ i = .sub

theorem exec_frame {i : Instr} {s t : State} (h : exec i s = .next t) : Frame i s t := by
  obtain ⟨-, k, rfl⟩ | ⟨u, rfl, rfl | ⟨hi, v, rfl⟩ | ⟨rfl, rfl⟩ | ⟨rfl, rfl⟩ | ⟨label, a, rfl, rfl⟩⟩ :=
    exec_next_cases h
  · exact ⟨rfl, .inl rfl, .inl rfl, .inl rfl, .inl rfl⟩
  · exact ⟨rfl, .inl rfl, .inl rfl, .inl rfl, .inl rfl⟩
  · exact ⟨rfl, .inl rfl, .inr (hi.imp_right .inl), .inl rfl, .inl rfl⟩
  · exact ⟨rfl, .inl rfl, .inr (.inr (.inr rfl)), .inl rfl, .inr rfl⟩
  · exact ⟨rfl, .inl rfl, .inl rfl, .inr ⟨rfl, rfl⟩, .inl rfl⟩
  · exact ⟨rfl, .inr ⟨label, a, rfl, rfl⟩, .inl rfl, .inl rfl, .inl rfl⟩

/-- No instruction writes the latch, and none but a jump writes `IC`. -/
theorem exec_keeps_cur_ic {i : Instr} {s t : State} (h : exec i s = .next t) :
    t.cur = s.cur ∧ ((∀ g, i ≠ .jmp g) → (∀ g, i ≠ .jn g) → t.ic = s.ic) := by
  obtain ⟨⟨g, rfl⟩ | ⟨g, rfl⟩, k, rfl⟩ |
    ⟨u, rfl, rfl | ⟨-, v, rfl⟩ | ⟨-, rfl⟩ | ⟨-, rfl⟩ | ⟨-, a, -, rfl⟩⟩ := exec_next_cases h
  · exact ⟨rfl, fun hjmp _ => absurd rfl (hjmp g)⟩
  · exact ⟨rfl, fun _ hjn => absurd rfl (hjn g)⟩
  all_goals exact ⟨rfl, fun _ _ => rfl⟩

/-- Settles O19: each clause is one of `Frame`, read for an instruction that does not write the piece of state. -/
theorem frameOfInstructionsThatStoreNothing : Obligations.FrameOfInstructionsThatStoreNothing := by
  intro i s t hsta h
  obtain ⟨hprog, hmem, hacc, hb, hnf⟩ := exec_frame h
  obtain ⟨hcur, hic⟩ := exec_keeps_cur_ic h
  have hmem' : t.mem = s.mem := hmem.resolve_right fun ⟨label, _, hi, _⟩ => hsta label hi
  refine ⟨fun a => by rw [hmem'], hprog, hcur, fun hlda hadd hsub => hacc.resolve_right ?_,
    fun hmba => hb.resolve_right fun hi => hmba hi.1, hnf.resolve_right, hic⟩
  rintro (⟨label, hi⟩ | hi | hi)
  · exact hlda label hi
  · exact hadd hi
  · exact hsub hi

/-- Replacing the value of one cell changes no cell's label. -/
@[simp] theorem Memory.label_read_write_value (m : Memory) (a b : Addr) (v : Text) :
    ((m.write a ⟨(m.read a).label, v⟩).read b).label = (m.read b).label := by
  by_cases hb : b = a
  · rw [hb, Memory.read_write_same]
  · rw [Memory.read_write_ne hb]

/-- Settles O20: `STA` stores to the cell that its operand resolves to, or to none. -/
theorem frameOfSta : Obligations.FrameOfSta := by
  intro label s t h
  obtain ⟨a, hl, hx⟩ | ⟨hl, hx⟩ := exec_sta label s <;> cases hx.symm.trans h <;>
    refine ⟨rfl, rfl, rfl, rfl, rfl, rfl, fun b hb => ?_, fun hnone => ?_⟩
  · obtain rfl : a = b := Option.some.inj (hl.symm.trans hb)
    exact ⟨Memory.label_read_write_value _ _ _ _, fun c hc => Memory.read_write_ne hc _ _⟩
  · cases hl.symm.trans hnone
  · cases hl.symm.trans hb
  · exact fun _ => rfl

/-! ## What a step writes -/

/-- A step writes what the instruction it fetched writes, and besides that the cursors and the latch. -/
theorem step_frame {s t : State} (h : step s = .next t) : ∃ i, s.fetches i ∧ Frame i s t := by
  obtain ⟨line, i, u, hl, hd, hx, rfl⟩ := step_next_iff.mp h
  obtain ⟨hprog, hmem, hacc, hb, hnf⟩ := exec_frame hx
  refine ⟨i, ⟨line, hl, hd⟩, ?_⟩
  unfold postIncrement
  split <;> exact ⟨hprog, hmem, hacc, hb, hnf⟩

/-- Settles O21: `step_frame`, read for a piece of state that has changed. -/
theorem stepWritersOfEachCell : Obligations.StepWritersOfEachCell := by
  intro s t h
  obtain ⟨i, hi, hprog, hmem, hacc, hb, hnf⟩ := step_frame h
  refine ⟨fun hne => hnf.resolve_left hne ▸ hi, fun hne => ?_, fun hne => ?_, fun hne => ?_, hprog⟩
  · obtain ⟨rfl, hval⟩ := hb.resolve_left hne
    exact ⟨hi, hval⟩
  · obtain ⟨label, rfl⟩ | rfl | rfl := hacc.resolve_left hne
    · exact .inl ⟨label, hi⟩
    · exact .inr (.inl hi)
    · exact .inr (.inr hi)
  · obtain ⟨label, -, rfl, -⟩ := hmem.resolve_left hne
    exact ⟨label, hi⟩

/-- Memory after a step is memory before it, or that with one value replaced by the numeral of `ACC` (R72, R142). -/
theorem step_mem {s t : State} (h : step s = .next t) :
    t.mem = s.mem ∨ ∃ a, t.mem = s.mem.write a ⟨(s.mem.read a).label, intToString s.acc⟩ := by
  obtain ⟨i, -, hf⟩ := step_frame h
  exact hf.mem.imp_right fun ⟨_, a, _, hm⟩ => ⟨a, hm⟩

theorem step_keeps_prog {s t : State} (h : step s = .next t) : t.prog = s.prog := by
  obtain ⟨i, -, hf⟩ := step_frame h
  exact hf.prog

theorem step_keeps_label {s t : State} (h : step s = .next t) (a : Addr) :
    (t.mem.read a).label = (s.mem.read a).label := by
  obtain hm | ⟨c, hm⟩ := step_mem h <;> simp [hm]

/-- Settles O22: a cell that changed is the one cell whose value was replaced. -/
theorem stepChangesAtMostOneValue : Obligations.StepChangesAtMostOneValue := by
  intro s t h
  refine ⟨step_keeps_label h, ?_⟩
  obtain hm | ⟨c, hm⟩ := step_mem h
  · simp [hm]
  · have eq_of_changed : ∀ a, t.mem.read a ≠ s.mem.read a → a = c := fun a hne =>
      by_contra fun ha => hne (by rw [hm, Memory.read_write_ne ha])
    refine ⟨fun a ha => ?_, fun a b ha hb => (eq_of_changed a ha).trans (eq_of_changed b hb).symm⟩
    rw [eq_of_changed a ha, hm, Memory.read_write_same]

/-- Settles O23: every step keeps the program and the labels, so every run does. -/
theorem runsKeepProgramAndLabels : Obligations.RunsKeepProgramAndLabels := by
  intro m s
  refine runFor_keeps (P := fun t => t.prog = s.prog ∧ ∀ a, (t.mem.read a).label = (s.mem.read a).label) ?_ m s
    ⟨rfl, fun _ => rfl⟩
  rintro t u ⟨hprog, hlabel⟩ h
  exact ⟨(step_keeps_prog h).trans hprog, fun a => (step_keeps_label h a).trans (hlabel a)⟩

/-! ## The invariant -/

/-- An instruction and the increment after it leave equal cursors equal: a taken jump writes the same number to both, and
everything else advances both. -/
theorem postIncrement_keeps_cursors_equal {i : Instr} {s t : State} (hs : s.pc = s.ic) (h : exec i s = .next t) :
    (postIncrement i s t).pc = (postIncrement i s t).ic := by
  obtain ⟨htaken, u, hx, hu⟩ | ⟨n, -, htaken, -, hx⟩ | ⟨-, -, hx⟩ := exec_cases i s <;> cases hx.symm.trans h
  · have hcursors : u.pc = s.pc ∧ u.ic = s.ic := by
      obtain rfl | ⟨v, rfl⟩ | ⟨-, rfl⟩ | ⟨-, rfl⟩ | ⟨a, v, rfl⟩ := hu <;> exact ⟨rfl, rfl⟩
    simp [postIncrement, htaken, hcursors, hs]
  · simp [postIncrement, htaken]

/-- Settles O25: the cursors by the instruction's case, memory because a write keeps the canonical form. -/
theorem stepKeepsCursorsEqualAndMemoryCanonical : Obligations.StepKeepsCursorsEqualAndMemoryCanonical := by
  rintro s t ⟨hcursors, hwf⟩ h
  constructor
  · obtain ⟨line, i, u, -, -, hx, rfl⟩ := step_next_iff.mp h
    exact postIncrement_keeps_cursors_equal (s := s.latch (trim line)) hcursors hx
  · obtain hm | ⟨a, hm⟩ := step_mem h
    · exact hm ▸ hwf
    · exact hm ▸ Memory.wf_write hwf a _

/-- Settles O24: both cursors are 0, and no cell is listed. -/
theorem resetMeetsTheInv : Obligations.ResetMeetsTheInv := ⟨rfl, Memory.wf_nil⟩

theorem setMemoryCell_keeps_inv (address label value : Text) {s : State} (h : s.Inv) :
    (setMemoryCell address label value s).state.Inv := by
  obtain ⟨hcursors, hwf⟩ := h
  unfold setMemoryCell
  split
  · exact ⟨hcursors, Memory.wf_write hwf _ _⟩
  · exact ⟨hcursors, hwf⟩

/-- Settles O26: one case for each operation; those that run steps keep what a step keeps. -/
theorem operationsKeepCursorsEqualAndMemoryCanonical : Obligations.OperationsKeepCursorsEqualAndMemoryCanonical := by
  intro op s h
  cases op with
  | reset => exact resetMeetsTheInv
  | submitCode lines => exact h
  | setMemoryCell address label value => exact setMemoryCell_keeps_inv address label value h
  | step =>
    simp only [operate]
    cases hx : step s with
    | next t => exact stepKeepsCursorsEqualAndMemoryCanonical s t h hx
    | fault f => exact h
    | refused r => exact h
  | runToCompletion rounds => exact runFor_keeps stepKeepsCursorsEqualAndMemoryCanonical rounds s h
  | getState => exact h

/-- Settles O27, by induction on the operations that brought the state about. -/
theorem reachableStatesHaveEqualCursors : Obligations.ReachableStatesHaveEqualCursors := by
  intro s h
  induction h with
  | reset => exact resetMeetsTheInv
  | operate op _ ih => exact operationsKeepCursorsEqualAndMemoryCanonical op _ ih

/-! ## What is never read -/

/-- Two answers of one kind: next values that are related, or the same condition, or the same refusal. -/
inductive SameAnswer {α : Type} (R : α → α → Prop) :
    Host.Outcome α Fault Refusal → Host.Outcome α Fault Refusal → Prop where
  | next {a b : α} : R a b → SameAnswer R (.next a) (.next b)
  | fault (f : Fault) : SameAnswer R (.fault f) (.fault f)
  | refused (r : Refusal) : SameAnswer R (.refused r) (.refused r)

/-- `PC <- p`, which no operation of the machine does alone: what a state is compared with. -/
def State.withPc (s : State) (p : Nat) : State := { s with pc := p }

@[simp] theorem State.withPc_nf (s : State) (p : Nat) : (s.withPc p).nf = s.nf := rfl
@[simp] theorem State.withPc_mem (s : State) (p : Nat) : (s.withPc p).mem = s.mem := rfl

/-- The states that agree with `s` in everything but `PC` are `s` with the values of `PC`. -/
theorem State.sameButPc_iff {s u : State} : s.sameButPc u ↔ ∃ p, u = s.withPc p := by
  constructor
  · intro h
    refine ⟨u.pc, ?_⟩
    calc u = State.withPc { u with pc := 0 } u.pc := rfl
      _ = State.withPc { s with pc := 0 } u.pc := by rw [h]
  · rintro ⟨p, rfl⟩
    rfl

theorem jump_sameButPc (g : Target) (s : State) (p : Nat) :
    SameAnswer State.sameButPc (jump g s) (jump g (s.withPc p)) := by
  obtain (_ | k) | _ := g
  · exact .fault _
  · exact .next rfl
  · exact .next rfl

/-- No instruction reads `PC`: it answers the same, but for the `PC` it leaves. -/
theorem exec_sameButPc (i : Instr) (s : State) (p : Nat) :
    SameAnswer State.sameButPc (exec i s) (exec i (s.withPc p)) := by
  cases i with
  | lda label =>
    simp only [exec, execLda, State.withPc_mem]
    cases loadOperand s.mem label with
    | ok v => exact .next rfl
    | error tag => exact .next rfl
  | sta label =>
    simp only [exec, execSta, State.withPc_mem]
    cases lookupLabel s.mem label with
    | some a => exact .next rfl
    | none => exact .next rfl
  | add => exact .next rfl
  | sub => exact .next rfl
  | mba => exact .next rfl
  | hlt => exact .next rfl
  | jmp g => exact jump_sameButPc g s p
  | jn g =>
    simp only [exec, execJn, State.withPc_nf]
    cases s.nf with
    | true => exact jump_sameButPc g s p
    | false => exact .next rfl

@[simp] theorem taken_withPc (i : Instr) (s : State) (p : Nat) : taken i (s.withPc p) = taken i s := by
  cases i with
  | jmp g => cases g <;> rfl
  | jn g => cases g <;> rfl
  | _ => rfl

/-- Step 5 does not read `PC` either. -/
theorem postIncrement_sameButPc (i : Instr) (s : State) (p : Nat) {t u : State} (h : t.sameButPc u) :
    (postIncrement i s t).sameButPc (postIncrement i (s.withPc p) u) := by
  obtain ⟨q, rfl⟩ := State.sameButPc_iff.mp h
  simp only [postIncrement, taken_withPc]
  cases taken i s <;> rfl

/-- Fetching and decoding do not read `PC`, which they carry along. -/
theorem fetchDecode_withPc (s : State) (p : Nat) :
    fetchDecode (s.withPc p) = (fetchDecode s).map fun x => (x.1, x.2.withPc p) := by
  obtain ⟨he, hf⟩ | ⟨line, e, hl, hd, hf⟩ | ⟨line, i, hl, hd, hf⟩ := fetchDecode_cases s <;> rw [hf]
  · have hl : (s.withPc p).prog[(s.withPc p).ic]? = none := List.getElem?_eq_none_iff.mpr he
    simp [fetchDecode, hl, Except.map]
  · have hl' : (s.withPc p).prog[(s.withPc p).ic]? = some line := hl
    simp [fetchDecode, hl', hd, Except.map]
  · have hl' : (s.withPc p).prog[(s.withPc p).ic]? = some line := hl
    simp only [fetchDecode, hl', hd, Except.map]
    rfl

/-- A step of states that agree in everything but `PC` answers the same, but for the Snapshot and the `PC` it leaves. -/
theorem stepCall_sameButPc {s u : State} (h : s.sameButPc u) :
    SameAnswer (fun q r => q.state.sameButPc r.state) (stepCall s) (stepCall u) := by
  obtain ⟨p, rfl⟩ := State.sameButPc_iff.mp h
  simp only [stepCall, fetchDecode_withPc]
  cases fetchDecode s with
  | error f => exact .fault f
  | ok x =>
    obtain ⟨i, latched⟩ := x
    have hexec := exec_sameButPc i latched p
    simp only [Except.map]
    generalize exec i latched = a, exec i (latched.withPc p) = b at hexec ⊢
    cases hexec with
    | next htu => exact .next (postIncrement_sameButPc i latched p htu)
    | fault f => exact .fault f
    | refused r => exact .refused r

/-- Settles O28, by induction on the rounds: in each, the two steps answer the same. -/
theorem pcIsNeverRead : Obligations.PcIsNeverRead := by
  intro m
  induction m with
  | zero => exact fun s u h => ⟨h, rfl, rfl⟩
  | succ m ih =>
    intro s u h
    have hstep := stepCall_sameButPc h
    simp only [runFor]
    generalize stepCall s = a, stepCall u = b at hstep ⊢
    cases hstep with
    | next hqr =>
      obtain ⟨hstate, hstop, hlength⟩ := ih _ _ hqr
      exact ⟨hstate, hstop, congrArg (· + 1) hlength⟩
    | fault f => exact ⟨h, rfl, rfl⟩
    | refused r => exact ⟨h, rfl, rfl⟩

/-- Settles O29: fetching overwrites the latch before anything reads it. -/
theorem fetchLatchIsUnobservable : Obligations.FetchLatchIsUnobservable := by
  intro s w
  have hfetch : fetchDecode { s with cur := w } = fetchDecode s := rfl
  unfold stepCall
  rw [hfetch]

/-! ## The tags -/

/-- Everything that a step that completes returns: it ran the instruction at the cursor on the latched state. -/
theorem stepCall_next_cases {s : State} {r : StepReturn} (h : stepCall s = .next r) :
    ∃ line i u, s.prog[s.ic]? = some line ∧ decode (trim line) = .ok i ∧ exec i (s.latch (trim line)) = .next u ∧
      r = ⟨snapshot u, tagOf i s, postIncrement i (s.latch (trim line)) u⟩ := by
  obtain ⟨-, hf⟩ | ⟨line, e, -, -, hf⟩ | ⟨line, i, hl, hd, hf⟩ := fetchDecode_cases s <;>
    simp only [stepCall, hf, raise_eq, reduceCtorEq] at h
  cases hx : exec i (s.latch (trim line)) with
  | next u =>
    rw [hx] at h
    cases h
    exact ⟨line, i, u, hl, hd, hx, by rw [tagOf_latch]⟩
  | fault f => simp [hx] at h
  | refused r => simp [hx] at h

/-- A jump whose tag is not `Success` is one to a bad target. -/
theorem eq_bad_of_jumpTag_ne_success {g : Target} (h : jumpTag g ≠ .success) : g = .bad := by
  cases g with
  | bad => rfl
  | addr n => exact absurd rfl h

/-- An instruction whose tag is not `Success` is a no-operation: it advances `PC` alone, and is no taken jump. -/
theorem exec_of_tagOf_ne_success {i : Instr} {s : State} (h : tagOf i s ≠ .success) :
    exec i s = .next s.advancePc ∧ taken i s = false := by
  cases i with
  | lda label =>
    obtain ⟨v, hv, -⟩ | ⟨tag, -, hx⟩ := exec_lda label s
    · exact absurd (by simp [tagOf, hv]) h
    · exact ⟨hx, rfl⟩
  | sta label =>
    obtain ⟨a, ha, -⟩ | ⟨-, hx⟩ := exec_sta label s
    · exact absurd (by simp [tagOf, ha]) h
    · exact ⟨hx, rfl⟩
  | jmp g =>
    obtain rfl := eq_bad_of_jumpTag_ne_success h
    exact ⟨rfl, rfl⟩
  | jn g =>
    cases hn : s.nf with
    | true =>
      simp only [tagOf, hn] at h
      obtain rfl := eq_bad_of_jumpTag_ne_success h
      exact ⟨exec_jn_set _ hn, rfl⟩
    | false => exact absurd (by simp [tagOf, hn]) h
  | add => exact absurd rfl h
  | sub => exact absurd rfl h
  | mba => exact absurd rfl h
  | hlt => exact absurd rfl h

/-- Settles O30: the instruction was a no-operation, so only the latch and the two cursors moved. -/
theorem noOpTagsChangeOnlyCursors : Obligations.NoOpTagsChangeOnlyCursors := by
  intro s r h htag
  obtain ⟨line, i, u, -, -, hx, rfl⟩ := stepCall_next_cases h
  obtain ⟨hnoop, htaken⟩ := exec_of_tagOf_ne_success (i := i) (s := s.latch (trim line)) (by rwa [tagOf_latch])
  cases hnoop.symm.trans hx
  simp only [postIncrement, htaken]
  rfl

end Sys2Proof.Machine


/-! The memory family: what a load reads back of a store (R75, R142). -/

namespace Sys2Proof.Machine

/-- `Lookup` reads its operand ignoring case (R14, R15). -/
theorem lookupLabel_congr_lower {t u : Text} (h : lower t = lower u) (m : Memory) :
    lookupLabel m t = lookupLabel m u := by
  simp only [lookupLabel, Cell.labelled, h]

/-- Replacing a value leaves every operand resolving to the cell it resolved to. -/
@[simp] theorem lookupLabel_write_value (m : Memory) (a : Addr) (v t : Text) :
    lookupLabel (m.write a ⟨(m.read a).label, v⟩) t = lookupLabel m t :=
  lookupLabel_congr (fun b => Memory.label_read_write_value m a b v) t

/-- A load's operand delivers the integer that the cell it resolves to holds. -/
theorem loadOperand_of_lookupLabel {m : Memory} {t : Text} {a : Addr} {v : Int} (ha : lookupLabel m t = some a)
    (hv : parseInt (m.read a).value = some v) : loadOperand m t = .ok v := by
  simp only [loadOperand, ha, hv]

/-- The numeral stored to the cell an operand resolves to is what the operand then delivers. -/
theorem loadOperand_write_numeral {m : Memory} {t : Text} {a : Addr} (ha : lookupLabel m t = some a) (v : Int) :
    loadOperand (m.write a ⟨(m.read a).label, intToString v⟩) t = .ok v := by
  refine loadOperand_of_lookupLabel (a := a) ?_ ?_
  · rw [lookupLabel_write_value, ha]
  · rw [Memory.read_write_same, parseOfNumeral]

/-- `LDA` where its operand delivers an integer. -/
theorem exec_lda_of_loadOperand {label : Text} {s : State} {v : Int} (h : loadOperand s.mem label = .ok v) :
    exec (.lda label) s = .next (s.setAcc v).advancePc := by
  simp only [exec, execLda, h]

/-- `STA` where its operand resolves to a cell. -/
theorem exec_sta_of_lookupLabel {label : Text} {s : State} {a : Addr} (h : lookupLabel s.mem label = some a) :
    exec (.sta label) s = .next (s.storeValue a (intToString s.acc)).advancePc := by
  simp only [exec, execSta, h]

/-- Settles O41: the operand still resolves to the cell stored to, whose value is the numeral of the integer stored. -/
theorem loadAfterStore : Obligations.LoadAfterStore := by
  intro label again s t u hmatch hsta hagain hmem
  obtain ⟨a, ha⟩ := Option.ne_none_iff_exists'.mp hmatch
  cases (exec_sta_of_lookupLabel ha).symm.trans hsta
  have ha' : lookupLabel s.mem again = some a := (lookupLabel_congr_lower hagain s.mem).trans ha
  have hload : loadOperand u.mem again = .ok s.acc := by
    rw [hmem]
    exact loadOperand_write_numeral ha' s.acc
  exact exec_lda_of_loadOperand hload

end Sys2Proof.Machine


/-! The encoding family: which words the decoder accepts and as what (R93-R98), that it reads the canonical form back, and when
a step stops on a word it refuses (R101). -/

namespace Sys2Proof

/-! ## Line numbers -/

/-- Settles O35: a decimal digit is the one written for its value, so the two digits of a token are those of its number. -/
theorem targetIsTwoDecimalDigits : Obligations.TargetIsTwoDecimalDigits := by
  intro t n
  constructor
  · intro h
    unfold target at h
    split at h
    next c d =>
      split_ifs at h with hdigits
      obtain ⟨hc, hd⟩ := Bool.and_eq_true_iff.mp hdigits
      obtain ⟨hcle, hceq⟩ := digitCh_digitValue c hc
      obtain ⟨hdle, hdeq⟩ := digitCh_digitValue d hd
      cases h
      have htens : (10 * digitValue c + digitValue d) / 10 = digitValue c := by omega
      have hunits : (10 * digitValue c + digitValue d) % 10 = digitValue d := by omega
      refine ⟨by omega, ?_⟩
      rw [htens, hceq, ← digitCh_mod, hunits, hdeq]
    next => cases h
  · rintro ⟨hn, rfl⟩
    obtain ⟨htens, htensval⟩ := digit_digitCh (n / 10)
    obtain ⟨hunits, hunitsval⟩ := digit_digitCh n
    simp only [target, htens, hunits, htensval, hunitsval, Bool.and_self, if_true, Target.addr.injEq]
    omega

/-- What `Target` answers for any token is well formed. -/
theorem wf_target (t : Text) : (target t).wf = true := by
  cases h : target t with
  | addr n => simpa [Target.wf] using ((targetIsTwoDecimalDigits t n).mp h).1
  | bad => rfl

/-- The token the encoder writes for an operand is read back as that operand. -/
theorem target_targetToken {g : Target} (h : g.wf = true) : target (targetToken g) = g := by
  cases g with
  | addr n => exact (targetIsTwoDecimalDigits _ n).mpr ⟨by simpa [Target.wf] using h, rfl⟩
  | bad => rfl

/-! ## The grammar -/

/-- The operand tokens an instruction is read from (R92, R97, R98). -/
def Instr.ReadFrom : Instr → List Text → Prop
  | .lda t, ts | .sta t, ts => ts = [t]
  | .jmp g, ts | .jn g, ts => ∃ t, ts = [t] ∧ target t = g
  | .add, ts | .sub, ts | .mba, ts | .hlt, ts => ts = []

theorem assemble_eq_ok_iff {op : Opcode} {ts : List Text} {i : Instr} :
    assemble op ts = .ok i ↔ i.opcode = op ∧ i.ReadFrom ts := by
  constructor
  · intro h
    unfold assemble at h
    split at h <;> cases h <;> simp [Instr.opcode, Instr.ReadFrom]
  · rintro ⟨rfl, h⟩
    cases i with
    | lda t | sta t | add | sub | mba | hlt => subst h; rfl
    | jmp g | jn g => obtain ⟨t, rfl, rfl⟩ := h; rfl

theorem decodeTokens_eq_ok_iff {ts : List Text} {i : Instr} :
    decodeTokens ts = .ok i ↔ ∃ operands, ts = mnemonic i.opcode :: operands ∧ i.ReadFrom operands := by
  constructor
  · intro h
    cases ts with
    | nil => cases h
    | cons m operands =>
      cases hm : opcodeOfToken m with
      | none => simp [decodeTokens, hm] at h
      | some op =>
        simp only [decodeTokens, hm] at h
        obtain ⟨rfl, hread⟩ := assemble_eq_ok_iff.mp h
        exact ⟨operands, by rw [eq_mnemonic_of_opcodeOfToken hm], hread⟩
  · rintro ⟨operands, rfl, hread⟩
    simp only [decodeTokens, opcodeOfToken_mnemonic]
    exact assemble_eq_ok_iff.mpr ⟨rfl, hread⟩

/-- The words that decode to an instruction, by their tokens (R95). -/
theorem decode_eq_ok_iff {w : Text} {i : Instr} :
    decode w = .ok i ↔
      ∃ operands, dropLineLabel (tokens w) = mnemonic i.opcode :: operands ∧ i.ReadFrom operands :=
  decodeTokens_eq_ok_iff

/-- Settles O34: `decode_eq_ok_iff` with the mnemonic and the operand tokens of each instruction written out. -/
theorem decodeAcceptsExactlyTheGrammar : Obligations.DecodeAcceptsExactlyTheGrammar := by
  intro w i
  rw [decode_eq_ok_iff]
  cases i with
  | lda t | sta t | add | sub | mba | hlt => exact exists_eq_right
  | jmp g | jn g =>
    constructor
    · rintro ⟨_, hw, t, rfl, ht⟩
      exact ⟨t, hw, ht⟩
    · rintro ⟨t, hw, ht⟩
      exact ⟨[t], hw, t, rfl, ht⟩

/-! ## What decodes is well formed -/

theorem wf_of_readFrom {i : Instr} {ts : List Text} (h : i.ReadFrom ts) (hts : ∀ t ∈ ts, labelWf t = true) :
    i.wf = true := by
  cases i with
  | lda t | sta t => exact hts t (by rw [show ts = [t] from h]; exact List.mem_cons_self)
  | jmp g | jn g => obtain ⟨t, -, rfl⟩ := h; exact wf_target t
  | add | sub | mba | hlt => rfl

theorem mem_of_mem_dropLineLabel {t : Text} {ts : List Text} (h : t ∈ dropLineLabel ts) : t ∈ ts := by
  cases ts with
  | nil => exact h
  | cons u us =>
    rw [dropLineLabel] at h
    split_ifs at h
    · exact List.mem_cons_of_mem u h
    · exact h

/-- Settles O32: operands are read from tokens of the word, and a token is well formed. -/
theorem decodedIsWellFormed : Obligations.DecodedIsWellFormed := by
  intro w i h
  obtain ⟨operands, hw, hread⟩ := decode_eq_ok_iff.mp h
  refine wf_of_readFrom hread fun t ht => labelWf_of_mem_tokens (s := w) (mem_of_mem_dropLineLabel ?_)
  rw [hw]
  exact List.mem_cons_of_mem _ ht

/-! ## Reading the canonical form back -/

theorem readFrom_operandTokens {i : Instr} (h : i.wf = true) : i.ReadFrom (operandTokens i) := by
  cases i with
  | lda t | sta t | add | sub | mba | hlt => rfl
  | jmp g | jn g => exact ⟨targetToken g, rfl, target_targetToken h⟩

@[simp] theorem dropLineLabel_mnemonic_cons (op : Opcode) (ts : List Text) :
    dropLineLabel (mnemonic op :: ts) = mnemonic op :: ts := by
  simp [dropLineLabel]

/-- A word whose tokens, less one line label, are those of a well-formed instruction decodes to it. -/
theorem decode_of_tokens {i : Instr} (hi : i.wf = true) {w : Text}
    (hw : dropLineLabel (tokens w) = mnemonic i.opcode :: operandTokens i) : decode w = .ok i :=
  decode_eq_ok_iff.mpr ⟨_, hw, readFrom_operandTokens hi⟩

/-- The tokens of the canonical form (R93), for every instruction. -/
theorem tokens_encode {i : Instr} (hi : i.wf = true) : tokens (encode i) = mnemonic i.opcode :: operandTokens i := by
  cases i with
  | lda t => exact Laws.CanonicalTokens.lda t hi
  | sta t => exact Laws.CanonicalTokens.sta t hi
  | add => exact Laws.CanonicalTokens.add hi
  | sub => exact Laws.CanonicalTokens.sub hi
  | mba => exact Laws.CanonicalTokens.mba hi
  | jmp g => exact Laws.CanonicalTokens.jmp g hi
  | jn g => exact Laws.CanonicalTokens.jn g hi
  | hlt => exact Laws.CanonicalTokens.hlt hi

/-- Settles O31: the canonical form has the instruction's own tokens, and its mnemonic is no line label. -/
theorem decodeOfEncode : Obligations.DecodeOfEncode := by
  intro i hi
  apply decode_of_tokens hi
  rw [tokens_encode hi, dropLineLabel_mnemonic_cons]

/-- Settles O36: the eight words are canonical forms. -/
theorem writtenOutWordsDecode : Obligations.WrittenOutWordsDecode :=
  ⟨decodeOfEncode (.lda [0x78]) rfl, decodeOfEncode (.sta [0x79]) rfl, decodeOfEncode .add rfl, decodeOfEncode .sub rfl,
    decodeOfEncode .mba rfl, decodeOfEncode (.jmp (.addr 4)) rfl, decodeOfEncode (.jn (.addr 7)) rfl,
    decodeOfEncode .hlt rfl⟩

/-! ## Layout and line labels -/

/-- Whitespace around a text adds no token. -/
theorem tokens_spaces_around {before after : Text} (hb : before.all isSpace = true) (ha : after.all isSpace = true)
    (s : Text) : tokens (before ++ s ++ after) = tokens s := by
  rw [tokens_eq_pieces, tokens_eq_pieces, List.append_assoc, pieces_spaces_append hb]
  by_cases hne : after = []
  · rw [hne, List.append_nil]
  · simpa using pieces_append_spaces_append ha hne s []

/-- A run of whitespace ends a token as one space does. -/
theorem tokens_token_spaces {t gap : Text} (ht : labelWf t = true) (hg : gap.all isSpace = true) (hne : gap ≠ [])
    (r : Text) : tokens (t ++ gap ++ r) = t :: tokens r := by
  rw [tokens_eq_pieces, tokens_eq_pieces, pieces_append_spaces_append hg hne, pieces_token ht, List.singleton_append]

theorem labelWf_name_colon {name : Text} (h : name.all (fun c => !isSpace c) = true) :
    labelWf (name ++ [0x3A]) = true := by
  have hcolon : isSpace 0x3A = false := by decide
  simp [labelWf, List.all_append, h, hcolon]

theorem dropLineLabel_name_colon_cons (name : Text) (ts : List Text) :
    dropLineLabel ((name ++ [0x3A]) :: ts) = ts := by
  simp [dropLineLabel, isLineLabel]

/-- Settles O33: in each of the three layouts the tokens, less the line label, are those of the canonical form. -/
theorem layoutAndLineLabelIgnored : Obligations.LayoutAndLineLabelIgnored := by
  intro i name before gap after hi hname hbefore hgap hne hafter
  refine ⟨?_, ?_, fun t ht => ?_⟩ <;> apply decode_of_tokens hi
  · rw [tokens_spaces_around hbefore hafter, tokens_encode hi, dropLineLabel_mnemonic_cons]
  · have hlayout : before ++ name ++ [0x3A] ++ gap ++ encode i ++ after =
        before ++ (name ++ [0x3A] ++ gap ++ encode i) ++ after := by simp only [List.append_assoc]
    rw [hlayout, tokens_spaces_around hbefore hafter, tokens_token_spaces (labelWf_name_colon hname) hgap hne,
      dropLineLabel_name_colon_cons, tokens_encode hi]
  · have hlayout : before ++ mnemonic i.opcode ++ gap ++ t ++ after =
        before ++ (mnemonic i.opcode ++ gap ++ t) ++ after := by simp only [List.append_assoc]
    have hoperand : labelWf t = true := labelWf_of_mem_operandTokens hi (by rw [ht]; exact List.mem_cons_self)
    rw [hlayout, tokens_spaces_around hbefore hafter, tokens_token_spaces (labelWf_mnemonic _) hgap hne,
      tokens_token hoperand, dropLineLabel_mnemonic_cons, ht]

end Sys2Proof

namespace Sys2Proof.Machine

/-! ## The labels an instruction reaches -/

theorem labelWf_iff {t : Text} : labelWf t = true ↔ t ≠ [] ∧ ∀ c ∈ t, isSpace c = false := by
  simp [labelWf]

/-- Lower-casing neither makes whitespace nor takes it away. -/
theorem isSpace_lowerCh : ∀ c : Ch, isSpace (lowerCh c) = isSpace c := by decide

theorem labelWf_lower (t : Text) : labelWf (lower t) = labelWf t := by
  simp [labelWf, lower, Function.comp_def, isSpace_lowerCh]

/-- Settles O38: a decoded operand is a token, and a label equal to it ignoring case is one too. -/
theorem onlyTokenLabelsAreReached : Obligations.OnlyTokenLabelsAreReached := by
  intro w t m a hdecode hlookup
  have ht : labelWf t = true := hdecode.elim (decodedIsWellFormed w (.lda t)) (decodedIsWellFormed w (.sta t))
  have hlabel : lower (m.read a).label = lower t := (Cell.labelled_iff _ _).mp (labelled_of_lookupLabel hlookup)
  rw [← labelWf_iff, ← labelWf_lower, hlabel, labelWf_lower, ht]

/-! ## Illegal words -/

/-- A step that raises a condition leaves the state as it was (R17, R209). -/
theorem operate_step_of_fault {s : State} {f : Fault} (h : step s = .fault f) : operate .step s = s := by
  simp only [operate, h, nextState?, Option.getD_none]

/-- Settles O3: of the answers of `step_cases`, only that for an illegal word raises `IllegalInstruction`. -/
theorem illegalInstructionExactlyOnIllegalWord : Obligations.IllegalInstructionExactlyOnIllegalWord := by
  intro s
  refine ⟨⟨fun h => ?_, ?_⟩, operate_step_of_fault⟩
  · obtain ⟨-, hs⟩ | ⟨line, e, hl, hd, -⟩ | ⟨_, _, -, -, -, hs⟩ | ⟨_, _, _, -, -, -, hs⟩ := step_cases s
    · cases h.symm.trans hs
    · exact ⟨line, e, hl, hd⟩
    · cases h.symm.trans hs
    · cases h.symm.trans hs
  · rintro ⟨line, e, hl, hd⟩
    have hfetch : fetchDecode s = .error .illegalInstruction := by simp only [fetchDecode, hl, hd]
    simp only [step, stepCall, hfetch, raise_eq]

end Sys2Proof.Machine


/-! The step-cycle family: what a step answers and leaves (R120-R127), its net effect on the cursors (R128), and the runs that
stop and the one that does not (R130-R132). -/

namespace Sys2Proof.Machine

/-! ## The answer of a step -/

theorem postIncrement_of_taken {i : Instr} {s : State} (h : taken i s = true) (t : State) : postIncrement i s t = t := by
  simp only [postIncrement, h]

theorem postIncrement_of_not_taken {i : Instr} {s : State} (h : taken i s = false) (t : State) :
    postIncrement i s t = t.advanceIc := by
  simp only [postIncrement, h]

/-- Step 5 does not depend on the fetch latch. -/
@[simp] theorem postIncrement_latch (i : Instr) (s : State) (w : Text) :
    postIncrement i (s.latch w) = postIncrement i s := by
  funext t
  simp only [postIncrement, taken_latch]

theorem step_of_stepCall_next {s : State} {r : StepReturn} (h : stepCall s = .next r) : step s = .next r.state := by
  simp only [step, h]

theorem step_of_stepCall_fault {s : State} {f : Fault} (h : stepCall s = .fault f) : step s = .fault f := by
  simp only [step, h]

section
variable {s : State} {line : Text} {i : Instr} (hl : s.prog[s.ic]? = some line) (hd : decode (trim line) = .ok i)
include hl hd

/-- A step whose instruction completes: the Snapshot is that of the state before step 5 (R125, R127). -/
theorem stepCall_of_exec_next {t : State} (hx : exec i (s.latch (trim line)) = .next t) :
    stepCall s = .next ⟨snapshot t, tagOf i s, postIncrement i s t⟩ := by
  simp only [stepCall_of_line hl hd, hx, tagOf_latch, postIncrement_latch]

/-- A condition that the instruction raises is the step's. -/
theorem stepCall_of_exec_fault {f : Fault} (hx : exec i (s.latch (trim line)) = .fault f) : stepCall s = .fault f := by
  simp only [stepCall_of_line hl hd, hx]

end

/-- Settles O1: one case for each answer of the instruction, with and without the increment. -/
theorem stepRunsDecodedInstruction : Obligations.StepRunsDecodedInstruction := by
  intro s line i hl hd
  refine ⟨fun t hx ht => ?_, fun t hx ht => ?_, fun f hx => ?_⟩
  · have hcall := stepCall_of_exec_next hl hd hx
    rw [postIncrement_of_taken ht] at hcall
    exact ⟨hcall, step_of_stepCall_next hcall⟩
  · have hcall := stepCall_of_exec_next hl hd hx
    rw [postIncrement_of_not_taken ht] at hcall
    exact ⟨hcall, step_of_stepCall_next hcall⟩
  · have hcall := stepCall_of_exec_fault hl hd hx
    exact ⟨hcall, step_of_stepCall_fault hcall⟩

/-- Past the end of the program every step raises `ProgramCompleted` (R121). -/
theorem step_of_ended {s : State} (h : s.ended) : step s = .fault .programCompleted := by
  have hl : s.prog[s.ic]? = none := List.getElem?_eq_none_iff.mpr h
  simp only [step, stepCall, fetchDecode, hl, raise_eq]

/-- Settles O2: of the answers of `step_cases`, only that past the end of the program raises `ProgramCompleted`. -/
theorem programCompletedExactlyPastEnd : Obligations.ProgramCompletedExactlyPastEnd := by
  intro s
  refine ⟨⟨fun h => ?_, step_of_ended⟩, fun he => operate_step_of_fault (step_of_ended he)⟩
  obtain ⟨he, -⟩ | ⟨_, _, -, -, hs⟩ | ⟨_, _, -, -, -, hs⟩ | ⟨_, _, _, -, -, -, hs⟩ := step_cases s
  · exact he
  all_goals cases h.symm.trans hs

/-! ## The cursors -/

/-- `i` is a jump that `s` makes, to line `n`: a `JMP`, or a `JN` with `NF` set (R162, R165). -/
def JumpsToLine (i : Instr) (s : State) (n : Nat) : Prop := i = .jmp (.addr n) ∨ (i = .jn (.addr n) ∧ s.nf = true)

theorem exec_of_jumpsToLine {i : Instr} {s : State} {n : Nat} (h : JumpsToLine i s n) :
    exec i s = jump (.addr n) s := by
  obtain rfl | ⟨rfl, hn⟩ := h
  · exact exec_jmp _ s
  · exact exec_jn_set _ hn

theorem taken_of_jumpsToLine {i : Instr} {s : State} {n : Nat} (h : JumpsToLine i s n) (hn : 1 ≤ n) :
    taken i s = true := by
  obtain rfl | ⟨rfl, hnf⟩ := h
  · simp [taken, hn]
  · simp [taken, hn, hnf]

theorem le_99_of_jumpsToLine {i : Instr} {s : State} {n : Nat} (h : JumpsToLine i s n) (hi : i.wf = true) : n ≤ 99 := by
  obtain rfl | ⟨rfl, -⟩ := h <;> exact of_decide_eq_true hi

/-- A jump that is made and completes moves both cursors to the slot of its line (R161), which is not line `00` (R164). -/
theorem exec_next_of_jumpsToLine {i : Instr} {s t : State} {n : Nat} (h : JumpsToLine i s n) (hx : exec i s = .next t) :
    1 ≤ n ∧ t = s.jumpTo (n - 1) := by
  rw [exec_of_jumpsToLine h] at hx
  cases n with
  | zero => cases hx
  | succ k =>
    cases hx
    exact ⟨Nat.succ_pos k, rfl⟩

/-- An instruction that completes and is no taken jump advances `PC` and leaves `IC` to step 5 (R124). -/
theorem exec_next_cursors_of_not_taken {i : Instr} {s t : State} (ht : taken i s = false) (hx : exec i s = .next t) :
    t.ic = s.ic ∧ t.pc = s.pc + 1 := by
  obtain ⟨-, u, hu, hcases⟩ | ⟨n, -, htaken, -⟩ | ⟨-, -, hu⟩ := exec_cases i s
  · cases hu.symm.trans hx
    obtain rfl | ⟨v, rfl⟩ | ⟨-, rfl⟩ | ⟨-, rfl⟩ | ⟨a, v, rfl⟩ := hcases <;> exact ⟨rfl, rfl⟩
  · cases ht.symm.trans htaken
  · cases hu.symm.trans hx

/-- The select signal is set only for a jump that is made (R160). -/
theorem not_taken_of_not_jumpsToLine {i : Instr} {s : State} (h : ∀ n, ¬JumpsToLine i s n) : taken i s = false := by
  obtain ⟨ht, -⟩ | ⟨n, -, -, hj, -⟩ | ⟨ht, -⟩ := exec_cases i s
  · exact ht
  · exact absurd hj (h n)
  · exact ht

/-- Settles O6: a jump that is made writes the slot of its line to both cursors, and everything else advances each by one, `PC`
when it executes and `IC` in step 5. -/
theorem netEffectOnCursors : Obligations.NetEffectOnCursors := by
  intro s t h
  obtain ⟨line, i, u, hl, hd, hx, rfl⟩ := step_next_iff.mp h
  rw [postIncrement_latch]
  refine ⟨i, ⟨line, hl, hd⟩, fun n (hj : JumpsToLine i s n) => ?_, fun hno => ?_⟩
  · obtain ⟨hn, rfl⟩ := exec_next_of_jumpsToLine (s := s.latch (trim line)) hj hx
    rw [postIncrement_of_taken (taken_of_jumpsToLine hj hn)]
    exact ⟨hn, le_99_of_jumpsToLine hj (decodedIsWellFormed _ i hd), rfl, rfl⟩
  · have ht : taken i s = false := not_taken_of_not_jumpsToLine hno
    obtain ⟨hic, hpc⟩ := exec_next_cursors_of_not_taken (by rwa [taken_latch]) hx
    rw [postIncrement_of_not_taken ht]
    exact ⟨congrArg (· + 1) hic, hpc⟩

/-! ## The Snapshot of a step -/

/-- Everything that a step of a known instruction returns, if it completes. -/
theorem stepCall_next_of_fetches {s : State} {i : Instr} {r : StepReturn} (hi : s.fetches i) (h : stepCall s = .next r) :
    ∃ w u, exec i (s.latch w) = .next u ∧ r = ⟨snapshot u, tagOf i s, postIncrement i s u⟩ := by
  obtain ⟨line, hl, hd⟩ := hi
  obtain ⟨line', i', u, hl', hd', hx, rfl⟩ := stepCall_next_cases h
  cases hl.symm.trans hl'
  cases hd.symm.trans hd'
  exact ⟨trim line, u, hx, by rw [postIncrement_latch]⟩

/-- The increment of `IC` shows in `ir` and in the two display fields only (R181, R184). -/
theorem snapshot_eq_snapshot_advanceIc (s : State) :
    snapshot s = { snapshot s.advanceIc with
      ir := natToString s.ic, comments := commentsOf s.ic s.prog, instructionSteps := stepsOf s.ic s.prog } := by
  simp only [snapshot, State.advanceIc_pc, State.advanceIc_acc, State.advanceIc_b, State.advanceIc_nf, State.advanceIc_mem]

/-- Settles O47: the Snapshot is of the state before step 5, which a taken jump skips. -/
theorem stepSnapshotIsTakenBeforeTheIncrement : Obligations.StepSnapshotIsTakenBeforeTheIncrement := by
  intro s i r hi h
  obtain ⟨w, u, hx, rfl⟩ := stepCall_next_of_fetches hi h
  refine ⟨fun ht => ?_, fun ht => ?_⟩
  · rw [postIncrement_of_taken ht, getState]
  · obtain ⟨hic, -⟩ := exec_next_cursors_of_not_taken (by rwa [taken_latch]) hx
    have hic : u.ic = s.ic := hic
    have hprog : u.prog = s.prog := (exec_frame hx).prog
    rw [postIncrement_of_not_taken ht, ← hic, ← hprog]
    exact ⟨rfl, snapshot_eq_snapshot_advanceIc u⟩

/-! ## Runs that stop, and one that does not -/

section
variable {s : State}

/-- A round whose step completes is followed by the rounds left, from the state the step leaves (R186). -/
theorem runFor_succ_of_next {r : StepReturn} (h : stepCall s = .next r) (m : Nat) :
    runFor (m + 1) s =
      ⟨r.snapshot :: (runFor m r.state).snapshots, (runFor m r.state).state, (runFor m r.state).stop⟩ := by
  simp only [runFor, h]

theorem runFor_succ_of_fault {f : Fault} (h : stepCall s = .fault f) (m : Nat) :
    runFor (m + 1) s = ⟨[], s, some (.raised f)⟩ := by
  simp only [runFor, h]

theorem runFor_succ_of_refused {r : Refusal} (h : stepCall s = .refused r) (m : Nat) :
    runFor (m + 1) s = ⟨[], s, some (.refused r)⟩ := by
  simp only [runFor, h]

end

/-- Settles O48, by induction on the rounds of the run that stopped: its last round is one that fails, and leaves the state
that every further run starts from. -/
theorem stoppedRunsStayStopped : Obligations.StoppedRunsStayStopped := by
  intro m k s x h
  induction m generalizing s with
  | zero => cases h
  | succ m ih =>
    cases hc : stepCall s with
    | next r =>
      rw [runFor_succ_of_next hc m] at h ⊢
      exact ih r.state h
    | fault f =>
      rw [runFor_succ_of_fault hc m] at h ⊢
      cases h
      exact runFor_succ_of_fault hc k
    | refused r =>
      rw [runFor_succ_of_refused hc m] at h ⊢
      cases h
      exact runFor_succ_of_refused hc k

/-- Where every state with a property has a step that completes and keeps it, no run from such a state stops. -/
theorem runFor_stop_eq_none {P : State → Prop} (hP : ∀ s, P s → ∃ r, stepCall s = .next r ∧ P r.state) (m : Nat)
    {s : State} (h : P s) : (runFor m s).stop = none := by
  induction m generalizing s with
  | zero => rfl
  | succ m ih =>
    obtain ⟨r, hc, hr⟩ := hP s h
    rw [runFor_succ_of_next hc m]
    exact ih hr

/-- The line at the fetch cursor is a `JMP` to that very line (R131). -/
def State.AtSelfJump (s : State) : Prop := s.fetches (.jmp (.addr (s.ic + 1)))

/-- A step of such a line completes and fetches the line again. -/
theorem stepCall_of_atSelfJump {s : State} (h : s.AtSelfJump) : ∃ r, stepCall s = .next r ∧ r.state.AtSelfJump := by
  obtain ⟨line, hl, hd⟩ := h
  have hx : exec (.jmp (.addr (s.ic + 1))) (s.latch (trim line)) = .next ((s.latch (trim line)).jumpTo s.ic) := rfl
  refine ⟨_, stepCall_of_exec_next hl hd hx, ?_⟩
  rw [postIncrement_of_taken (taken_of_jumpsToLine (.inl rfl) (Nat.succ_pos s.ic))]
  exact ⟨line, hl, hd⟩

/-- Settles O51: every round comes back to the line, so no number of rounds stops the run. -/
theorem selfJumpNeverEnds : Obligations.SelfJumpNeverEnds := by
  intro s h
  have hnone : ∀ m, (runFor m s).stop = none := fun m => runFor_stop_eq_none (fun _ => stepCall_of_atSelfJump) m h
  refine ⟨hnone, ?_⟩
  rintro r ⟨hstop, m, rfl⟩
  rw [hnone m] at hstop
  cases hstop

end Sys2Proof.Machine


/-! The load and store family: what `LDA` and `STA` do where their operand has a first match and where it has none (R141, R142),
and that no instruction but a jump to line `00` fails (R143, R206). -/

namespace Sys2Proof.Machine

/-- Settles O8: of the answers of `exec_cases`, only that of a jump to line `00` is no next state. -/
theorem onlyJumpToLineZeroFails : Obligations.OnlyJumpToLineZeroFails := by
  intro i s
  obtain ⟨-, u, hx, -⟩ | ⟨n, -, -, -, hx⟩ | ⟨-, hi, hx⟩ := exec_cases i s
  · exact .inl ⟨_, hx⟩
  · exact .inl ⟨_, hx⟩
  · exact .inr ⟨hx, hi⟩

/-! ## What a load's operand delivers where it delivers no integer -/

theorem loadOperand_of_no_match {m : Memory} {t : Text} (h : lookupLabel m t = none) :
    loadOperand m t = .error .noOpUnmatchedLabel := by
  simp only [loadOperand, h]

theorem loadOperand_of_unparseable {m : Memory} {t : Text} {a : Addr} (ha : lookupLabel m t = some a)
    (hv : parseInt (m.read a).value = none) : loadOperand m t = .error .noOpUnparseableValue := by
  simp only [loadOperand, ha, hv]

/-! ## `LDA` -/

section
variable {label : Text} {s : State}

theorem exec_lda_of_loadOperand_error {tag : OutcomeTag} (h : loadOperand s.mem label = .error tag) :
    exec (.lda label) s = .next s.advancePc := by
  simp only [exec, execLda, h]

theorem tagOf_lda_of_loadOperand {v : Int} (h : loadOperand s.mem label = .ok v) :
    tagOf (.lda label) s = .success := by
  simp only [tagOf, h]

theorem tagOf_lda_of_loadOperand_error {tag : OutcomeTag} (h : loadOperand s.mem label = .error tag) :
    tagOf (.lda label) s = tag := by
  simp only [tagOf, h]

end

/-- Settles O9: the lowest match is what `Lookup` answers, and each of the three outcomes is one answer of `loadOperand`. -/
theorem ldaLoadsFirstMatch : Obligations.LdaLoadsFirstMatch := by
  intro label s
  obtain ⟨lookup_some_iff, lookup_none_iff⟩ := lookupIsFirstMatch s.mem label
  refine ⟨rfl, fun a hlabel hfirst => ?_, fun hnone => ?_⟩
  · have ha : lookupLabel s.mem label = some a := (lookup_some_iff a).mpr ⟨hlabel, hfirst⟩
    refine ⟨fun v hv => ?_, fun hv => ?_⟩
    · have hload := loadOperand_of_lookupLabel ha hv
      exact ⟨exec_lda_of_loadOperand hload, tagOf_lda_of_loadOperand hload⟩
    · have hload := loadOperand_of_unparseable ha hv
      exact ⟨exec_lda_of_loadOperand_error hload, tagOf_lda_of_loadOperand_error hload⟩
  · have hload := loadOperand_of_no_match (lookup_none_iff.mpr hnone)
    exact ⟨exec_lda_of_loadOperand_error hload, tagOf_lda_of_loadOperand_error hload⟩

/-! ## `STA` -/

section
variable {label : Text} {s : State}

theorem exec_sta_of_no_match (h : lookupLabel s.mem label = none) : exec (.sta label) s = .next s.advancePc := by
  simp only [exec, execSta, h]

theorem tagOf_sta_of_lookupLabel {a : Addr} (h : lookupLabel s.mem label = some a) :
    tagOf (.sta label) s = .success := by
  simp only [tagOf, h]

theorem tagOf_sta_of_no_match (h : lookupLabel s.mem label = none) :
    tagOf (.sta label) s = .noOpUnmatchedLabel := by
  simp only [tagOf, h]

end

/-- Settles O10: the cell that `Lookup` answers is the one written, and what is read back of it and of the others are the laws
of `Memory.read` after `Memory.write`. -/
theorem staStoresFirstMatch : Obligations.StaStoresFirstMatch := by
  intro label s
  obtain ⟨lookup_some_iff, lookup_none_iff⟩ := lookupIsFirstMatch s.mem label
  refine ⟨rfl, fun a hlabel hfirst => ?_, fun hnone => ?_⟩
  · have ha : lookupLabel s.mem label = some a := (lookup_some_iff a).mpr ⟨hlabel, hfirst⟩
    refine ⟨tagOf_sta_of_lookupLabel ha, s.mem.write a ⟨(s.mem.read a).label, intToString s.acc⟩,
      exec_sta_of_lookupLabel ha, Memory.read_write_same _ _ _, ?_, fun b hb => Memory.read_write_ne hb _ _⟩
    rw [Memory.read_write_same, parseOfNumeral]
  · have hlookup : lookupLabel s.mem label = none := lookup_none_iff.mpr hnone
    exact ⟨exec_sta_of_no_match hlookup, tagOf_sta_of_no_match hlookup⟩

end Sys2Proof.Machine


/-! The arithmetic family: what `ADD`, `SUB` and `MBA` answer (R152-R154), and that `SUB` leaves the sign and the magnitude of
the exact difference (R151). -/

namespace Sys2Proof.Machine

/-! ## `MBA` -/

/-- Settles O13: of the clauses of `Frame`, that of `B` names `MBA` as the one writer. -/
theorem mbaCopiesAccToB : Obligations.MbaCopiesAccToB := by
  intro s
  refine ⟨exec_mba s, rfl, rfl, fun i t hx hne => ?_⟩
  obtain ⟨hi, -⟩ := (exec_frame hx).b.resolve_left hne
  exact hi

/-! ## `ADD` -/

/-- Settles O11: the equation of `ADD`. -/
theorem addAddsB : Obligations.AddAddsB := fun s => ⟨exec_add s, rfl, rfl⟩

/-! ## `SUB`, by the sign of the difference -/

section
variable {s : State}

theorem exec_sub_of_neg (h : s.acc - s.b < 0) :
    exec .sub s = .next { s with acc := -(s.acc - s.b), nf := true, pc := s.pc + 1 } := by
  rw [exec_sub, abs_of_neg h, decide_eq_true (sub_neg.mp h)]
  rfl

theorem exec_sub_of_nonneg (h : 0 ≤ s.acc - s.b) :
    exec .sub s = .next { s with acc := s.acc - s.b, nf := false, pc := s.pc + 1 } := by
  rw [exec_sub, abs_of_nonneg h, decide_eq_false (sub_nonneg.mp h).not_gt]
  rfl

end

/-- Settles O12: the two signs of the difference. -/
theorem subStoresMagnitudeAndSign : Obligations.SubStoresMagnitudeAndSign :=
  fun _ => ⟨exec_sub_of_neg, exec_sub_of_nonneg, rfl, rfl⟩

/-- Settles O18: the sign of the difference fixes `NF`, and `NF` which clauses on `SUB` have something to say. -/
theorem arithmeticIsExact : Obligations.ArithmeticIsExact := by
  intro s t
  refine ⟨fun hx => ?_, fun hx => ?_⟩
  · cases (exec_add s).symm.trans hx
    rfl
  · obtain hneg | hnonneg := lt_or_ge (s.acc - s.b) 0
    · cases (exec_sub_of_neg hneg).symm.trans hx
      exact ⟨neg_nonneg.mpr hneg.le, iff_of_true rfl (sub_neg.mp hneg), fun _ => (neg_pos.mpr hneg).ne',
        fun _ => neg_neg _, nofun⟩
    · cases (exec_sub_of_nonneg hnonneg).symm.trans hx
      exact ⟨hnonneg, iff_of_false nofun (sub_nonneg.mp hnonneg).not_gt, nofun, nofun, fun _ => rfl⟩

end Sys2Proof.Machine


/-! The control transfer family: what `JMP` and `JN` answer for each operand (R162-R165), when a step raises `InvalidJumpTarget`
(R164), and which line a taken jump goes on with (R161). -/

namespace Sys2Proof.Machine

/-! ## A jump that is made, to line `00` and to a line `n >= 1` -/

section
variable {i : Instr} {s : State}

theorem exec_of_jumpsToLine_zero (h : JumpsToLine i s 0) : exec i s = .fault .invalidJumpTarget := by
  rw [exec_of_jumpsToLine h, jump_zero]

theorem exec_of_jumpsToLine_pos {n : Nat} (h : JumpsToLine i s n) (hn : 1 ≤ n) : exec i s = .next (s.jumpTo (n - 1)) := by
  rw [exec_of_jumpsToLine h, jump_addr hn]

theorem tagOf_of_jumpsToLine {n : Nat} (h : JumpsToLine i s n) : tagOf i s = .success := by
  obtain rfl | ⟨rfl, hnf⟩ := h
  · rfl
  · simp only [tagOf, hnf, jumpTag]

/-- All that a jump to line `n >= 1` answers: both cursors at slot `n - 1`, the select signal set, the tag `Success` (R162). -/
theorem completes_of_jumpsToLine {n : Nat} (h : JumpsToLine i s n) (hn : 1 ≤ n) :
    exec i s = .next { s with ic := n - 1, pc := n - 1 } ∧ taken i s = true ∧ tagOf i s = .success :=
  ⟨exec_of_jumpsToLine_pos h hn, taken_of_jumpsToLine h hn, tagOf_of_jumpsToLine h⟩

end

/-- Settles O17: both instructions are jumps that are made, to line `00`. -/
theorem jumpToLineZeroRaises : Obligations.JumpToLineZeroRaises := by
  intro s
  exact ⟨exec_of_jumpsToLine_zero (.inl rfl), fun hnf => exec_of_jumpsToLine_zero (.inr ⟨rfl, hnf⟩)⟩

/-! ## Where the jumps complete -/

/-- Settles O15: a line `n >= 1` is jumped to, and a bad target falls through. -/
theorem jmpCompletes : Obligations.JmpCompletes := by
  intro s
  exact ⟨fun n hn => completes_of_jumpsToLine (.inl rfl) hn, jump_bad s, rfl, rfl⟩

section
variable {s : State}

theorem taken_jn_of_nf_clear (h : s.nf = false) (t : Target) : taken (.jn t) s = false := by
  cases t with
  | addr n => simp only [taken, h, Bool.false_and]
  | bad => rfl

theorem tagOf_jn_of_nf_clear (h : s.nf = false) (t : Target) : tagOf (.jn t) s = .success := by
  simp only [tagOf, h]

theorem tagOf_jn_bad_of_nf_set (h : s.nf = true) : tagOf (.jn .bad) s = .noOpBadTarget := by
  simp only [tagOf, h, jumpTag]

end

/-- Settles O16: with `NF` clear the operand is not examined, and with `NF` set `JN` is as `JMP`. -/
theorem jnCompletes : Obligations.JnCompletes := by
  intro s
  refine ⟨fun hclear t => ?_, fun hset => ⟨fun n hn => ?_, ?_⟩⟩
  · exact ⟨exec_jn_clear t hclear, taken_jn_of_nf_clear hclear t, tagOf_jn_of_nf_clear hclear t⟩
  · exact completes_of_jumpsToLine (.inr ⟨rfl, hset⟩) hn
  · exact ⟨exec_jn_set .bad hset, rfl, tagOf_jn_bad_of_nf_set hset⟩

/-! ## The step of a jump that is made -/

theorem fetches_jumpsToLine_iff {s : State} {n : Nat} :
    (∃ i, s.fetches i ∧ JumpsToLine i s n) ↔
      s.fetches (.jmp (.addr n)) ∨ (s.fetches (.jn (.addr n)) ∧ s.nf = true) := by
  constructor
  · rintro ⟨i, hi, rfl | ⟨rfl, hnf⟩⟩
    · exact .inl hi
    · exact .inr ⟨hi, hnf⟩
  · rintro (hi | ⟨hi, hnf⟩)
    · exact ⟨_, hi, .inl rfl⟩
    · exact ⟨_, hi, .inr ⟨rfl, hnf⟩⟩

section
variable {s : State} {i : Instr} (hi : s.fetches i)
include hi

theorem step_of_jumpsToLine_zero (h : JumpsToLine i s 0) : step s = .fault .invalidJumpTarget := by
  obtain ⟨line, hl, hd⟩ := hi
  have hx := exec_of_jumpsToLine_zero (s := s.latch (trim line)) h
  exact step_of_stepCall_fault (stepCall_of_exec_fault hl hd hx)

/-- A taken jump skips step 5, so the step leaves what the jump does, with the line latched (R126). -/
theorem step_of_jumpsToLine_pos {n : Nat} (h : JumpsToLine i s n) (hn : 1 ≤ n) :
    ∃ w, step s = .next ((s.latch w).jumpTo (n - 1)) := by
  obtain ⟨line, hl, hd⟩ := hi
  have hx := exec_of_jumpsToLine_pos (s := s.latch (trim line)) h hn
  have hstep := step_of_stepCall_next (stepCall_of_exec_next hl hd hx)
  rw [postIncrement_of_taken (taken_of_jumpsToLine h hn)] at hstep
  exact ⟨trim line, hstep⟩

end

/-- Settles O4: of the answers of `step_cases`, only that of a jump that is made to line `00` raises `InvalidJumpTarget`. -/
theorem invalidJumpTargetExactlyOnLineZero : Obligations.InvalidJumpTargetExactlyOnLineZero := by
  intro s
  refine ⟨?_, operate_step_of_fault⟩
  rw [← fetches_jumpsToLine_iff]
  constructor
  · intro h
    obtain ⟨-, hs⟩ | ⟨_, _, -, -, hs⟩ | ⟨line, i, hl, hd, hj, -⟩ | ⟨_, _, _, -, -, -, hs⟩ := step_cases s
    · cases h.symm.trans hs
    · cases h.symm.trans hs
    · exact ⟨i, ⟨line, hl, hd⟩, hj⟩
    · cases h.symm.trans hs
  · rintro ⟨i, hi, hj⟩
    exact step_of_jumpsToLine_zero hi hj

/-- Settles O7: the step leaves the program and sets `IC` to the slot of its line, so that slot is fetched next. -/
theorem takenJumpReachesItsLine : Obligations.TakenJumpReachesItsLine := by
  intro s n hjump hn
  obtain ⟨i, hi, hj⟩ := fetches_jumpsToLine_iff.mpr hjump
  obtain ⟨w, hstep⟩ := step_of_jumpsToLine_pos hi hj hn
  exact ⟨_, hstep, rfl, rfl, rfl, fun line _ hl hd => ⟨line, hl, hd⟩⟩

end Sys2Proof.Machine


/-! The system family: `HLT` is a no-operation (R170, R171), and its step ends no run. -/

namespace Sys2Proof.Machine

/-- `HLT` is no jump, so step 5 follows the advance of `PC`: the step latches the line and advances both cursors (R126). -/
theorem step_of_fetches_hlt {s : State} (hi : s.fetches .hlt) :
    ∃ w, step s = .next (s.latch w).advancePc.advanceIc := by
  obtain ⟨line, hl, hd⟩ := hi
  have hstep := step_of_stepCall_next (stepCall_of_exec_next hl hd (exec_hlt (s.latch (trim line))))
  rw [postIncrement_of_not_taken rfl] at hstep
  exact ⟨trim line, hstep⟩

/-- Settles O14: only the cursors move, so after the last line the fetch cursor stands at the end of the program, and it is the
step from there that raises the condition. -/
theorem hltIsNoOperation : Obligations.HltIsNoOperation := by
  refine ⟨fun s => ⟨exec_hlt s, rfl, rfl⟩, fun s hi => ?_⟩
  obtain ⟨w, hstep⟩ := step_of_fetches_hlt hi
  refine ⟨_, hstep, rfl, rfl, rfl, fun hlast => ?_⟩
  have hended : (s.latch w).advancePc.advanceIc.ended := hlast.ge
  exact step_of_ended hended

end Sys2Proof.Machine


/-! The host operations family: what `submitCode` and `setMemoryCell` write (R175, R177), what a Snapshot shows (R181, R182), and
how `runToCompletion` relates to the machine's own run and to its budget (R186-R188). -/

namespace Sys2Proof.Machine

/-! ## The program and one memory cell -/

/-- Settles O43: the equation of `submitCode`. -/
theorem submitCodeReplacesProgramOnly : Obligations.SubmitCodeReplacesProgramOnly := fun _ _ => rfl

/-- The upper-case hexadecimal digit of a number below 16 is read as that number. -/
theorem hexValue_hexCh {d : Nat} (h : d < 16) : hexValue (hexCh d) = some d :=
  (by decide : ∀ d : Fin 16, hexValue (hexCh d) = some d.val) ⟨d, h⟩

/-- A character read as a hexadecimal digit is the one written for its value. -/
theorem hexCh_hexValue : ∀ c : Ch, ∀ d ∈ hexValue c, d < 16 ∧ hexCh d = c := by decide

/-- The name of the address whose two digits are `x` and `y`. -/
theorem addrName_of_digits {x y : Nat} (hx : x < 16) (hy : y < 16) :
    addrName (Fin.ofNat 256 (16 * x + y)) = [hexCh x, hexCh y] := by
  have hval : (Fin.ofNat 256 (16 * x + y)).val = 16 * x + y := Nat.mod_eq_of_lt (by omega)
  have hhigh : (16 * x + y) / 16 = x := by omega
  have hlow : (16 * x + y) % 16 = y := by omega
  rw [addrName, hval, hhigh, hlow]

/-- An address argument names slot `k` exactly where it upper-cases to `A(k)` (R177, R178). -/
theorem parseAddr_eq_some_iff {t : Text} {k : Addr} : parseAddr t = some k ↔ upper t = addrName k := by
  constructor
  · intro h
    unfold parseAddr at h
    split at h
    next c d ht =>
      split at h
      next x y hc hd =>
        obtain ⟨hx, rfl⟩ := hexCh_hexValue c x hc
        obtain ⟨hy, rfl⟩ := hexCh_hexValue d y hd
        cases h
        rw [ht, addrName_of_digits hx hy]
      next => cases h
    next => cases h
  · intro h
    have hhigh : hexValue (hexCh (k.val / 16)) = some (k.val / 16) := hexValue_hexCh (by omega)
    have hlow : hexValue (hexCh (k.val % 16)) = some (k.val % 16) := hexValue_hexCh (by omega)
    simp only [parseAddr, h, addrName, hhigh, hlow, Nat.div_add_mod, Fin.ofNat_val_eq_self]

theorem setMemoryCell_of_parseAddr {address : Text} {a : Addr} (h : parseAddr address = some a) (label value : Text)
    (s : State) : setMemoryCell address label value s = ⟨true, none, s.writeCell a ⟨label, value⟩⟩ := by
  simp only [setMemoryCell, h]

theorem setMemoryCell_of_parseAddr_none {address : Text} (h : parseAddr address = none) (label value : Text)
    (s : State) : setMemoryCell address label value s = ⟨false, some .invalidAddress, s⟩ := by
  simp only [setMemoryCell, h]

/-- Settles O44: the slot an address names is the one whose `A(k)` it upper-cases to, and one cell is written there. -/
theorem setMemoryCellWritesTheNamedCell : Obligations.SetMemoryCellWritesTheNamedCell := by
  intro address label value s
  refine ⟨fun k hk => ?_, fun hnone => ?_⟩
  · exact ⟨s.mem.write k ⟨label, value⟩, setMemoryCell_of_parseAddr (parseAddr_eq_some_iff.mpr hk) label value s,
      Memory.read_write_same _ _ _, fun j hj => Memory.read_write_ne hj _ _⟩
  · have hparse : parseAddr address = none :=
      Option.eq_none_iff_forall_ne_some.mpr fun k hk => hnone k (parseAddr_eq_some_iff.mp hk)
    exact setMemoryCell_of_parseAddr_none hparse label value s

/-! ## The Snapshot -/

theorem natToString_injective : Function.Injective natToString := fun m n h => by
  simpa only [parseNat_natToString, Option.some.injEq] using congrArg parseNat h

theorem intToString_injective : Function.Injective intToString := fun v w h => by
  simpa only [parseOfNumeral v, parseOfNumeral w, Option.some.injEq] using congrArg parseInt h

/-- The flag field of the Snapshot tells the two values of `NF` apart. -/
theorem nf_eq_of_snapshot_nf {s t : State} (h : (snapshot s).nf = (snapshot t).nf) : s.nf = t.nf := by
  simp only [snapshot] at h
  cases hs : s.nf <;> cases ht : t.nf <;> simp [hs, ht] at h ⊢

/-- The memory field of the Snapshot lists every cell in address order. -/
theorem read_eq_of_snapshot_memory {s t : State} (h : (snapshot s).memory = (snapshot t).memory) (a : Addr) :
    s.mem.read a = t.mem.read a := by
  simp only [snapshot, List.map_inj_left] at h
  exact congrArg Prod.snd (h a (List.mem_finRange a))

/-- Settles O46: a numeral shows its number, and the memory field every cell. -/
theorem snapshotDeterminesVisibleState : Obligations.SnapshotDeterminesVisibleState := by
  intro s t (h : snapshot s = snapshot t)
  exact ⟨natToString_injective (congrArg Snapshot.pc h), natToString_injective (congrArg Snapshot.ir h),
    intToString_injective (congrArg Snapshot.acc h), intToString_injective (congrArg Snapshot.b h),
    nf_eq_of_snapshot_nf (congrArg Snapshot.nf h), read_eq_of_snapshot_memory (congrArg Snapshot.memory h)⟩

/-! ## The loop of `runToCompletion` -/

/-- A round of the loop completes a step, or the step fails and with it every run of at least one round. -/
theorem round_cases (s : State) :
    (∃ r, stepCall s = .next r) ∨
    ((∀ t, step s ≠ .next t) ∧ ∃ x, ∀ m, runFor (m + 1) s = ⟨[], s, some x⟩) := by
  cases hc : stepCall s with
  | next r => exact .inl ⟨r, rfl⟩
  | fault f => exact .inr ⟨by simp [step, hc], _, runFor_succ_of_fault hc⟩
  | refused r => exact .inr ⟨by simp [step, hc], _, runFor_succ_of_refused hc⟩

theorem core_run_succ_of_next {s t : State} (h : step s = .next t) (m : Nat) :
    Host.Core.run core (m + 1) s = Host.Core.run core m t := by
  have hcore : core.step s = .next t := h
  simp only [Host.Core.run, hcore]

theorem core_run_succ_ne_next {s : State} (h : ∀ t, step s ≠ .next t) (m : Nat) (t : State) :
    Host.Core.run core (m + 1) s ≠ .next t := by
  cases hs : step s with
  | next u => exact absurd hs (h u)
  | fault _ | refused _ =>
    have hcore : core.step s = _ := hs
    simp only [Host.Core.run, hcore, ne_eq, reduceCtorEq, not_false_eq_true]

/-- Settles O49, by induction on the rounds: a step that completes is the first of both runs, and one that fails ends both. -/
theorem runForIsTheRunOfTheCore : Obligations.RunForIsTheRunOfTheCore := by
  intro m
  induction m with
  | zero =>
    refine fun s t => ⟨?_, ?_⟩
    · rintro ⟨⟩
      exact ⟨rfl, rfl, rfl⟩
    · rintro ⟨-, rfl, -⟩
      rfl
  | succ m ih =>
    intro s t
    obtain ⟨r, hc⟩ | ⟨hfails, x, hstopped⟩ := round_cases s
    · rw [core_run_succ_of_next (step_of_stepCall_next hc) m, runFor_succ_of_next hc m, ih r.state t,
        List.length_cons, Nat.succ_inj]
    · rw [hstopped m]
      exact iff_of_false (core_run_succ_ne_next hfails m t) fun h => Option.some_ne_none x h.1

/-! ## The step budget -/

/-- A run that has stopped is the same with any number of rounds above the number of its steps. -/
theorem runFor_eq_of_stopped {n m : Nat} {s : State} (hstop : (runFor n s).stop.isSome = true)
    (hm : (runFor n s).snapshots.length < m) : runFor m s = runFor n s := by
  induction n generalizing m s with
  | zero => cases hstop
  | succ n ih =>
    obtain ⟨m, rfl⟩ := Nat.exists_eq_add_one_of_ne_zero (Nat.ne_zero_of_lt hm)
    obtain ⟨r, hc⟩ | ⟨-, x, hstopped⟩ := round_cases s
    · rw [runFor_succ_of_next hc] at hstop hm
      rw [runFor_succ_of_next hc, runFor_succ_of_next hc, ih hstop (Nat.lt_of_succ_lt_succ hm)]
    · rw [hstopped, hstopped]

/-- With no more rounds than a run has steps, the loop has not stopped and has returned the first of its Snapshots. -/
theorem runFor_of_le_length {m n : Nat} {s : State} (hm : m ≤ (runFor n s).snapshots.length) :
    (runFor m s).stop = none ∧ (runFor m s).snapshots = (runFor n s).snapshots.take m := by
  induction m generalizing n s with
  | zero => exact ⟨rfl, rfl⟩
  | succ m ih =>
    cases n with
    | zero => cases hm
    | succ n =>
      obtain ⟨r, hc⟩ | ⟨-, x, hstopped⟩ := round_cases s
      · rw [runFor_succ_of_next hc] at hm
        obtain ⟨hstop, hsnapshots⟩ := ih (Nat.le_of_succ_le_succ hm)
        rw [runFor_succ_of_next hc, runFor_succ_of_next hc, List.take_succ_cons, ← hsnapshots]
        exact ⟨hstop, rfl⟩
      · rw [hstopped] at hm
        cases hm

theorem runBudgeted_of_stopped {m : Nat} {s : State} (h : (runFor m s).stop.isSome = true) :
    runBudgeted m s = runFor m s := by
  obtain ⟨x, hx⟩ := Option.isSome_iff_exists.mp h
  simp only [runBudgeted, hx]

theorem runBudgeted_of_not_stopped {m : Nat} {s : State} (h : (runFor m s).stop = none) :
    runBudgeted m s = { runFor m s with stop := some (.raised .stepBudgetExceeded) } := by
  simp only [runBudgeted, h]

/-- Settles O50: above the length of the run the loop has stopped as without a budget; at or below it the loop has not. -/
theorem budgetOnlyCutsRunsShort : Obligations.BudgetOnlyCutsRunsShort := by
  rintro s r m ⟨hstop, n, rfl⟩
  refine ⟨fun hm => ?_, fun hm => ?_⟩
  · have hrun : runFor m s = runFor n s := runFor_eq_of_stopped hstop hm
    have hbudget : runBudgeted m s = runFor m s := runBudgeted_of_stopped (by rwa [hrun])
    exact (hbudget.trans hrun).symm
  · obtain ⟨hnone, hsnapshots⟩ := runFor_of_le_length hm
    refine ⟨runBudgeted m s, rfl, ?_⟩
    rw [runBudgeted_of_not_stopped hnone]
    exact ⟨rfl, hsnapshots⟩

end Sys2Proof.Machine


/-! The exceptions family: a step always returns (R236), with a next state or one of the three conditions that `step` raises
(R200, R208). -/

namespace Sys2Proof.Machine

/-- Settles O5: of the four answers of `step_cases`, three are the conditions named, and the other is a next state. -/
theorem stepAnswersNextOrNamedCondition : Obligations.StepAnswersNextOrNamedCondition := by
  intro s
  obtain ⟨-, hs⟩ | ⟨_, _, -, -, hs⟩ | ⟨_, _, -, -, -, hs⟩ | ⟨_, _, _, -, -, -, hs⟩ := step_cases s
  · exact .inr (.inl hs)
  · exact .inr (.inr (.inl hs))
  · exact .inr (.inr (.inr hs))
  · exact .inl ⟨_, hs⟩

end Sys2Proof.Machine


/-! The reset family: what `reset` restores and which operations leave the registers alone (R220), and the state in which a
launched program starts (R223, R224). -/

namespace Sys2Proof.Machine

/-! ## One `setMemoryCell` call -/

/-- Whether a call writes, and to which cell, does not depend on the state it is made in: one cell, or none (R177). -/
theorem setMemoryCell_state_cases (address label value : Text) :
    (∃ k, upper address = addrName k ∧ ∀ s, (setMemoryCell address label value s).state = s.writeCell k ⟨label, value⟩) ∨
    ((∀ k, upper address ≠ addrName k) ∧ ∀ s, (setMemoryCell address label value s).state = s) := by
  cases h : parseAddr address with
  | some k => exact .inl ⟨k, parseAddr_eq_some_iff.mp h, fun s => by rw [setMemoryCell_of_parseAddr h]⟩
  | none =>
    refine .inr ⟨fun k hk => ?_, fun s => by rw [setMemoryCell_of_parseAddr_none h]⟩
    cases h.symm.trans (parseAddr_eq_some_iff.mpr hk)

/-- A call replaces the memory and nothing else. -/
theorem setMemoryCell_state_eq_setMem (address label value : Text) (s : State) :
    ∃ m, (setMemoryCell address label value s).state = s.setMem m := by
  obtain ⟨k, -, hs⟩ | ⟨-, hs⟩ := setMemoryCell_state_cases address label value
  · exact ⟨_, hs s⟩
  · exact ⟨s.mem, hs s⟩

/-- A call and the submission of a program do not see each other's writes. -/
theorem setMemoryCell_setProg (address label value : Text) (s : State) (lines : List Text) :
    (setMemoryCell address label value (s.setProg lines)).state =
      (setMemoryCell address label value s).state.setProg lines := by
  obtain ⟨k, -, hs⟩ | ⟨-, hs⟩ := setMemoryCell_state_cases address label value <;> rw [hs, hs]
  rfl

theorem read_setMemoryCell_of_named {address : Text} {k : Addr} (h : upper address = addrName k) (label value : Text)
    (s : State) : (setMemoryCell address label value s).state.mem.read k = ⟨label, value⟩ := by
  rw [setMemoryCell_of_parseAddr (parseAddr_eq_some_iff.mpr h), State.writeCell_mem, Memory.read_write_same]

theorem read_setMemoryCell_of_not_named {address : Text} {k : Addr} (h : upper address ≠ addrName k) (label value : Text)
    (s : State) : (setMemoryCell address label value s).state.mem.read k = s.mem.read k := by
  obtain ⟨j, hj, hs⟩ | ⟨-, hs⟩ := setMemoryCell_state_cases address label value <;> rw [hs]
  have hkj : k ≠ j := by
    rintro rfl
    exact h hj
  rw [State.writeCell_mem, Memory.read_write_ne hkj]

/-! ## A sequence of `setMemoryCell` calls -/

@[simp] theorem setCells_nil (s : State) : setCells [] s = s := rfl

@[simp] theorem setCells_cons (c : Text × Text × Text) (cells : List (Text × Text × Text)) (s : State) :
    setCells (c :: cells) s = setCells cells (setMemoryCell c.1 c.2.1 c.2.2 s).state := rfl

theorem setCells_append (before after : List (Text × Text × Text)) (s : State) :
    setCells (before ++ after) s = setCells after (setCells before s) := List.foldl_append

/-- What every call keeps, a sequence of calls keeps. -/
theorem setCells_keeps {P : State → Prop}
    (hcall : ∀ address label value s, P s → P (setMemoryCell address label value s).state)
    (cells : List (Text × Text × Text)) {s : State} (hs : P s) : P (setCells cells s) := by
  induction cells generalizing s with
  | nil => exact hs
  | cons c cells ih => exact ih (hcall _ _ _ s hs)

theorem setCells_eq_setMem (cells : List (Text × Text × Text)) (s : State) : ∃ m, setCells cells s = s.setMem m := by
  refine setCells_keeps (P := fun t => ∃ m, t = s.setMem m) ?_ cells ⟨s.mem, rfl⟩
  rintro address label value _ ⟨m, rfl⟩
  obtain ⟨m', hm'⟩ := setMemoryCell_state_eq_setMem address label value (s.setMem m)
  exact ⟨m', hm'⟩

theorem setCells_keeps_inv (cells : List (Text × Text × Text)) {s : State} (h : s.Inv) : (setCells cells s).Inv :=
  setCells_keeps (fun address label value _ => setMemoryCell_keeps_inv address label value) cells h

theorem setCells_setProg (cells : List (Text × Text × Text)) (s : State) (lines : List Text) :
    setCells cells (s.setProg lines) = (setCells cells s).setProg lines := by
  induction cells generalizing s with
  | nil => rfl
  | cons c cells ih => rw [setCells_cons, setCells_cons, setMemoryCell_setProg, ih]

theorem read_setCells_of_not_named {cells : List (Text × Text × Text)} {k : Addr}
    (h : ∀ c ∈ cells, upper c.1 ≠ addrName k) (s : State) : (setCells cells s).mem.read k = s.mem.read k := by
  induction cells generalizing s with
  | nil => rfl
  | cons c cells ih =>
    obtain ⟨hc, hcells⟩ := List.forall_mem_cons.mp h
    rw [setCells_cons, ih hcells, read_setMemoryCell_of_not_named hc]

/-- A cell holds what the last call that names it wrote. -/
theorem read_setCells_of_last_named {after : List (Text × Text × Text)} {address : Text} {k : Addr}
    (hnamed : upper address = addrName k) (hafter : ∀ c ∈ after, upper c.1 ≠ addrName k)
    (before : List (Text × Text × Text)) (label value : Text) (s : State) :
    (setCells (before ++ (address, label, value) :: after) s).mem.read k = ⟨label, value⟩ := by
  rw [setCells_append, setCells_cons, read_setCells_of_not_named hafter, read_setMemoryCell_of_named hnamed]

/-! ## The launch -/

theorem launch_eq (cells : List (Text × Text × Text)) (lines : List Text) :
    launch cells lines = (setCells cells State.reset).setProg lines := rfl

/-- Settles O45: the calls replace the memory of the reset state and `submitCode` its program; the calls keep the invariant,
which does not speak of the program. -/
theorem launchedStartsAtZero : Obligations.LaunchedStartsAtZero := by
  intro cells lines
  have hinv : (setCells cells State.reset).Inv := setCells_keeps_inv cells resetMeetsTheInv
  obtain ⟨m, hm⟩ := setCells_eq_setMem cells State.reset
  rw [hm] at hinv
  rw [launch_eq, hm]
  exact ⟨rfl, rfl, rfl, rfl, rfl, rfl, hinv⟩

/-- The reset content of a cell, as the spec writes it (R41). -/
theorem cell_unset_eq : Cell.unset = ⟨txt "NULL", txt "0"⟩ := by decide

theorem read_reset (k : Addr) : State.reset.mem.read k = ⟨txt "NULL", txt "0"⟩ :=
  (Memory.read_nil k).trans cell_unset_eq

/-- Settles O52: the last call that names a cell decides what it holds, and `submitCode` commutes with the calls. -/
theorem launchedMemoryIsAsTheCallsWroteIt : Obligations.LaunchedMemoryIsAsTheCallsWroteIt := by
  refine ⟨fun cells lines k => ⟨?_, fun hnone => ?_⟩, fun before after lines => ?_⟩
  · rintro before address label value after rfl hnamed hafter
    rw [launch_eq, State.setProg_mem, read_setCells_of_last_named hnamed hafter]
  · rw [launch_eq, State.setProg_mem, read_setCells_of_not_named hnone, read_reset]
  · calc setCells after ((setCells before State.reset).setProg lines)
      _ = (setCells after (setCells before State.reset)).setProg lines := setCells_setProg _ _ _
      _ = (setCells (before ++ after) State.reset).setProg lines := by rw [setCells_append]

/-! ## `reset` -/

/-- Settles O42: `setMemoryCell` is the one operation left over that writes anything but the program, and it writes memory. -/
theorem resetRestoresEverything : Obligations.ResetRestoresEverything := by
  refine ⟨fun op s hreset hstep hrun => ?_, fun s => ⟨rfl, rfl, rfl, rfl, rfl, rfl, rfl, read_reset, rfl⟩⟩
  cases op with
  | reset => exact absurd rfl hreset
  | step => exact absurd rfl hstep
  | runToCompletion m => exact absurd rfl (hrun m)
  | submitCode lines => exact ⟨rfl, rfl, rfl, rfl, rfl⟩
  | getState => exact ⟨rfl, rfl, rfl, rfl, rfl⟩
  | setMemoryCell address label value =>
    obtain ⟨m, hm⟩ := setMemoryCell_state_eq_setMem address label value s
    rw [operate, hm]
    exact ⟨rfl, rfl, rfl, rfl, rfl⟩

end Sys2Proof.Machine
